-- ==== Sys2Proof/Config.lean ====
section
/-! DEFINITION. The parameters of 00_scope.md R6 as configuration fields with their defaults, and the free
values the spec leaves open. -/

namespace Sys2Proof

/-- `ALPHABET` (R6: not configurable; R50): the port codes of `A P Z L G I T Y E O X U K S V N`, in this order. -/
def Config.alphabet : List Nat :=
  [0x41, 0x50, 0x5A, 0x4C, 0x47, 0x49, 0x54, 0x59, 0x45, 0x4F, 0x58, 0x55, 0x4B, 0x53, 0x56, 0x4E]

/-- The parameters of R6 that an implementation sets and that stay fixed for the life of the block
(decision D14). State carries one of these, so that a statement holds for each choice; logs 1 and 2. -/
structure Params where
  /-- `HEADER_SIZE`, the seed of the Base Offset. -/
  headerSize : Nat
  /-- `BANK_SIZE`, the advance of the Base Offset per code. -/
  bankSize : Nat
  /-- `OFFW` (decision D5): width in bits of an image offset, of `BASE` and of `FOFF`. -/
  offw : Nat
  /-- `MODE_W` (decision D4): width in bits of the platform selector. -/
  modeW : Nat
  /-- `MODE_P0` (decision D4), the one selector value that has a decoder. -/
  modeP0 : Nat
  /-- `CHAR_W` (decision D2): width in bits of a character on the code port. -/
  charW : Nat
  /-- `CIDXW` (decision D13): width in bits of the code index. -/
  cidxw : Nat
deriving DecidableEq, Repr

/-- The defaults of R6. -/
def Params.default : Params where
  headerSize := 0x10
  bankSize := 0x8000
  offw := 32
  modeW := 2
  modeP0 := 0
  charW := 8
  cidxw := 32

/-- The choices that make a block: the seed fits `BASE` (R13), `MODE_P0` is a selector other than the reset value
(R14, R29), and each symbol has a code on the port (R50; log 34). -/
def Params.wf (p : Params) : Bool :=
  decide (p.headerSize < 2 ^ p.offw) && decide (p.modeP0 + 1 < 2 ^ p.modeW) &&
    Config.alphabet.all fun c => decide (c < 2 ^ p.charW)

/-- What an image byte that no cell lists reads as. DESIGN CHOICE (unsafe), log 5: the byte of the
conventions of 95_test_vectors.md. -/
def Config.unlistedByte : BitVec 8 := 0xEE

/-- FREE VALUE (R34, decision D17; log 8): the byte left by an in-bounds write that the device fails. -/
opaque Config.failedWriteByte : Nat → BitVec 8

/-- FREE VALUE (R133, decision D16; log 9): whether a write outstanding when `RESET` arrives lands. -/
opaque Config.abortedWriteLands : Nat → Bool

end Sys2Proof
end

