-- ==== Sys2Proof/Word.lean ====
section
/-! DEFINITION. The word types of fixed width (00_scope.md R9: all values are unsigned). Offsets, the code index, the
platform selector and characters have the widths of `Params`: they are numbers (log 1). -/

namespace Sys2Proof

/-- A 4-bit value: a register of the nibble files `d` and `r` (R10, R11). -/
abbrev Nibble := BitVec 4

/-- A byte of the image, a value or a compare byte (R20, R30). -/
abbrev Byte := BitVec 8

/-- The decoded address: a 16-bit container with 15 significant bits (R58, 90_conflicts.md C3). -/
abbrev Address := BitVec 16

/-- A nibble file: eight 4-bit registers (R10, R11). -/
abbrev NibbleFile := Vector Nibble 8

end Sys2Proof
end

