-- ==== Sys2Proof/Syntax.lean ====
section
/-! DEFINITION. The instructions: one constructor for each row of spec/opcode_table.json (R52, R67). -/

namespace Sys2Proof

/-- A code, with the fields the decoder assembles from its characters. -/
inductive Instr where
  /-- `GG6` (40_gg6.md R70): ignored bit `x` (R62), address `A` (R58), value `V` (R59). -/
  | gg6 (x : Bool) (a : Address) (v : Byte)
  /-- `GG8` (41_gg8.md R75): ignored bit `x`, address `A`, candidate value `V`, compare byte `C` (R60). -/
  | gg8 (x : Bool) (a : Address) (v : Byte) (c : Byte)
deriving DecidableEq, Repr

end Sys2Proof
end

