-- ==== Sys2Proof/WellFormed.lean ====
section
/-! DEFINITION. Well-formed instructions: those that some code stands for. -/

namespace Sys2Proof

/-- R58: `A[15] = 0` always, so `A` is at most 0x7FFF. -/
def addressFits (a : Address) : Bool := a.toNat ≤ 0x7FFF

/-- An instruction is well formed when its address fits; `x`, `V` and `C` take every value (R59, R60, R62). -/
def Instr.wf : Instr → Bool
  | .gg6 _ a _ => addressFits a
  | .gg8 _ a _ _ => addressFits a

end Sys2Proof
end

