-- ==== Sys2Proof/Decode.lean ====
section
/-! DEFINITION. The Code Decoder (30_encoding.md): alphabet, classification, rearrangement, assembly; then
the inverse mapping of R66. -/

namespace Sys2Proof

/-- R50: the position of a character in the alphabet, or none. -/
def alpha (c : Nat) : Option Nibble :=
  (Config.alphabet.findIdx? (· == c)).map (BitVec.ofNat 4)

/-- The symbol whose 4-bit value is `n` (R50, the table read downwards). -/
def symbol (n : Nibble) : Nat := Config.alphabet[n.toNat]?.getD 0

/-- The four outcomes of the classification of R53. -/
inductive CodeClass where
  | invalidCharacter
  | invalidLength
  | gg6
  | gg8
deriving DecidableEq, Repr

/-- R53: the classification of a code, in the rule's order of checks. -/
def classify (code : List Nat) : CodeClass :=
  if code.any (fun c => (alpha c).isNone) then .invalidCharacter
  else if code.length = 6 then .gg6
  else if code.length = 8 then .gg8
  else .invalidLength

/-- R53 in the token-by-token form of R21, from the counter `LEN` and the bit `BAD`. -/
def classifyLatched (len : BitVec 4) (bad : Bool) : CodeClass :=
  if bad then .invalidCharacter
  else if len = 6 then .gg6
  else if len = 8 then .gg8
  else .invalidLength

/-- R56: the rearrangement of a six-character code; `r[6]` and `r[7]` keep their values. -/
def rearrange6 (d r : NibbleFile) : NibbleFile :=
  #v[d[3] &&& 0x7#4,
     (d[5] &&& 0x7#4) ||| (d[4] &&& 0x8#4),
     (d[2] &&& 0x7#4) ||| (d[1] &&& 0x8#4),
     (d[4] &&& 0x7#4) ||| (d[3] &&& 0x8#4),
     (d[1] &&& 0x7#4) ||| (d[0] &&& 0x8#4),
     (d[0] &&& 0x7#4) ||| (d[5] &&& 0x8#4),
     r[6],
     r[7]]

/-- R57 (90_conflicts.md C1: `r[5]` takes its bit 3 from `d[7]`): the rearrangement of an
eight-character code. -/
def rearrange8 (d : NibbleFile) : NibbleFile :=
  #v[d[3] &&& 0x7#4,
     (d[5] &&& 0x7#4) ||| (d[4] &&& 0x8#4),
     (d[2] &&& 0x7#4) ||| (d[1] &&& 0x8#4),
     (d[4] &&& 0x7#4) ||| (d[3] &&& 0x8#4),
     (d[1] &&& 0x7#4) ||| (d[0] &&& 0x8#4),
     (d[0] &&& 0x7#4) ||| (d[7] &&& 0x8#4),
     (d[7] &&& 0x7#4) ||| (d[6] &&& 0x8#4),
     (d[6] &&& 0x7#4) ||| (d[5] &&& 0x8#4)]

/-- R58: the decoded address `r0<<12 | r1<<8 | r2<<4 | r3`, `r[0]` the most significant nibble. -/
def assembleAddress (r : NibbleFile) : Address :=
  (r[0].setWidth 16 <<< 12) ||| (r[1].setWidth 16 <<< 8) ||| (r[2].setWidth 16 <<< 4) ||| r[3].setWidth 16

/-- A byte from its high and its low nibble, `(hi<<4) | lo`. -/
def joinByte (hi lo : Nibble) : Byte := (hi.setWidth 8 <<< 4) ||| lo.setWidth 8

/-- R59: the value of a `GG6` code, the candidate value of a `GG8` code. -/
def assembleValue (r : NibbleFile) : Byte := joinByte r[4] r[5]

/-- R60: the compare byte of a `GG8` code. -/
def assembleCompare (r : NibbleFile) : Byte := joinByte r[6] r[7]

/-- R62: bit 3 of `d[2]`, which no formula reads. -/
def ignoredBit (d : NibbleFile) : Bool := d[2].getLsbD 3

/-- The `GG6` instruction of a Decoded Nibble Set (R56, R58, R59). -/
def decode6 (d : NibbleFile) : Instr :=
  .gg6 (ignoredBit d) (assembleAddress (rearrange6 d d)) (assembleValue (rearrange6 d d))

/-- The `GG8` instruction of a Decoded Nibble Set (R57 to R60). -/
def decode8 (d : NibbleFile) : Instr :=
  .gg8 (ignoredBit d) (assembleAddress (rearrange8 d)) (assembleValue (rearrange8 d))
    (assembleCompare (rearrange8 d))

/-- What the decoder answers: an instruction, or the name of the decode failure (R64). -/
inductive Decoded where
  | instr (i : Instr)
  | invalidCharacter
  | invalidLength
deriving DecidableEq, Repr

/-- The decoded instruction, where there is one. -/
def Decoded.instr? : Decoded → Option Instr
  | .instr i => some i
  | .invalidCharacter => none
  | .invalidLength => none

/-- The decoder's answer for a class and the nibbles (R67). -/
def decodeAs (k : CodeClass) (d : NibbleFile) : Decoded :=
  match k with
  | .invalidCharacter => .invalidCharacter
  | .invalidLength => .invalidLength
  | .gg6 => .instr (decode6 d)
  | .gg8 => .instr (decode8 d)

/-- R51: the nibble of character `k`, 0 where the code has no such character or it is not in the alphabet
(such a nibble is not read). -/
def nibbleAt (code : List Nat) (k : Nat) : Nibble := (code[k]?.bind alpha).getD 0

/-- R51: the Decoded Nibble Set of a code. -/
def nibbleFile (code : List Nat) : NibbleFile :=
  #v[nibbleAt code 0, nibbleAt code 1, nibbleAt code 2, nibbleAt code 3,
     nibbleAt code 4, nibbleAt code 5, nibbleAt code 6, nibbleAt code 7]

/-- The decoder on a whole code, total on every character sequence (R53, R67). -/
def decodeCode (code : List Nat) : Decoded := decodeAs (classify code) (nibbleFile code)

/-- The decoder on the nibbles latched so far, `LEN` and `BAD` (R21, R91). -/
def decodeLatched (d : NibbleFile) (len : BitVec 4) (bad : Bool) : Decoded :=
  decodeAs (classifyLatched len bad) d

/-! ### The inverse mapping (R66) -/

/-- The nibble with high bit `hi` and the low three bits `lo`. -/
def joinNibble (hi : Bool) (lo : BitVec 3) : Nibble := ((BitVec.ofBool hi).setWidth 4 <<< 3) ||| lo.setWidth 4

/-- The nibbles `d[0]` to `d[4]` of both forms (R66). -/
def encodeHead (x : Bool) (a : Address) (v : Byte) : List Nibble :=
  [joinNibble (v.getLsbD 7) (v.extractLsb' 0 3),
   joinNibble (a.getLsbD 7) (v.extractLsb' 4 3),
   joinNibble x (a.extractLsb' 4 3),
   joinNibble (a.getLsbD 3) (a.extractLsb' 12 3),
   joinNibble (a.getLsbD 11) (a.extractLsb' 0 3)]

/-- R66: the nibbles of a code that stands for an instruction. -/
def encodeNibbles : Instr → List Nibble
  | .gg6 x a v => encodeHead x a v ++ [joinNibble (v.getLsbD 3) (a.extractLsb' 8 3)]
  | .gg8 x a v c =>
    encodeHead x a v ++
      [joinNibble (c.getLsbD 3) (a.extractLsb' 8 3),
       joinNibble (c.getLsbD 7) (c.extractLsb' 0 3),
       joinNibble (v.getLsbD 3) (c.extractLsb' 4 3)]

/-- R66: the code that stands for an instruction, as characters. -/
def encode (i : Instr) : List Nat := (encodeNibbles i).map symbol

/-! ### The words of spec/opcode_table.json (R54, R55) -/

/-- Nibble `k` of a word of `nbits` bits, the first character in the most significant nibble (R54, R55). -/
def tableNibble (nbits w k : Nat) : Nibble := BitVec.ofNat 4 (w >>> (nbits - 4 - 4 * k))

/-- The code that a word of the table stands for: one character for each four bits. -/
def tableCode (nbits w : Nat) : List Nat :=
  (List.range (nbits / 4)).map fun k => symbol (tableNibble nbits w k)

/-- The instruction the decoder reads from a word of the table. -/
def decodeTableWord (nbits w : Nat) : Option Instr := (decodeCode (tableCode nbits w)).instr?

end Sys2Proof
end

