-- ==== Sys2Proof/Machine/State.lean ====
section
/-! DEFINITION. The state of the block and of what its four interfaces bring it, as plain data; the reset
state; the reasons a step can stop. -/

namespace Sys2Proof.Machine

/-- `STATE`, the field `STATUS[1:0]` (R15, R16). -/
inductive RunState where
  | idle | run | done | fault
deriving DecidableEq, Repr

/-- `CAUSE`, the field `STATUS[7:2]` (R17). -/
inductive Cause where
  | none | platformNotImplemented | invalidLength | imageIOError | offsetOverflow | invalidCharacter
deriving DecidableEq, Repr

/-- `FOP`, the field `STATUS[8]` (R15): the kind of the failing image access. -/
inductive FaultOp where
  | read | write
deriving DecidableEq, Repr

/-- The host's registers (R19). -/
inductive HostReg where
  | mode | status | base | cidx | foff | ctrl
deriving DecidableEq, Repr

/-- The Target Image (R30): its length `IMG_LEN` and the bytes that differ from `Config.unlistedByte`. -/
structure Memory where
  len : Nat
  cells : List Host.Cell
deriving DecidableEq, Repr

/-- A token on the code port (R24); `fin` is the token the spec calls `END`. -/
inductive Token where
  | char (c : Nat) | sep | fin
deriving DecidableEq, Repr

/-- The two tokens that end a code (R90). -/
inductive Terminator where
  | sep | fin
deriving DecidableEq, Repr

/-- Where a code in execution stands between two steps (R25, R26, R27, R92), with the values it still needs
(log 21). -/
inductive Pending where
  /-- The read request of a `GG8` code is outstanding; candidate value `v`, compare byte `c`. -/
  | read (off : Nat) (v c : Byte)
  /-- The write request of `w` is outstanding. -/
  | write (off : Nat) (w : Byte)
  /-- The record `(off, w)` is offered at `RPT` and not yet taken. -/
  | report (off : Nat) (w : Byte)
  /-- The write request at `off` has failed and the entry of `ImageIOError` is still to come (R113, R117; log 33). -/
  | failing (off : Nat)
  /-- The record has been taken and the advance is still to come (R92, R96; log 33). -/
  | advance
  /-- The advance is made and the end of the code is still to come (R90, R98; log 33). -/
  | ending
deriving DecidableEq, Repr

/-- What the image device says when the block looks for the response to its request (R25, R27, R40):
a success, a failure (the oracle `IO_FAIL`), or no response yet. -/
inductive ImgAnswer where
  | ok | err | wait
deriving DecidableEq, Repr

/-- What the host does with the record offered at `RPT` (R26, R27). -/
inductive RptAnswer where
  | take | wait
deriving DecidableEq, Repr

/-- Whether the block takes its next internal step at once, or not yet (R146: each internal step may take any
finite time; log 33). -/
inductive Pace where
  | go | rest
deriving DecidableEq, Repr

/-- A move of the host (R8, R23, R136); `pass` is no move: the block goes on. -/
inductive HostMove where
  | pass
  /-- `RESET` (R130). -/
  | reset
  /-- A register write on `HOST` (R19). -/
  | write (r : HostReg) (v : Nat)
  /-- A register read on `HOST` (R19). -/
  | read (r : HostReg)
  /-- A token offered on `CQ` (R24). -/
  | offer (t : Token)
  /-- A new Target Image of `len` bytes put in place by the host (R136). -/
  | loadImage (len : Nat) (cells : List Host.Cell)
deriving DecidableEq, Repr

/-- An observable event (R28). -/
inductive Event where
  | start (mode : Nat)
  | imgRead (off : Nat) (b : Byte)
  | imgWrite (off : Nat) (v : Byte)
  | report (off : Nat) (v : Byte)
  | fault (cause : Cause) (cidx : Nat)
  | done (n : Nat)
deriving DecidableEq, Repr

/-- The machine. -/
structure State where
  /-- The parameters of R6 (logs 1 and 2). -/
  params : Params
  /-- `MODE` (R14). -/
  mode : Nat
  /-- `STATE` (R16). -/
  runState : RunState
  /-- `CAUSE` (R17). -/
  cause : Cause
  /-- `FOP` (R15, R18). -/
  fop : FaultOp
  /-- `BASE` (R13). -/
  base : Nat
  /-- `CIDX` (R12). -/
  cidx : Nat
  /-- `FOFF` (R18). -/
  foff : Nat
  /-- The Decoded Nibble Set (R10). -/
  d : NibbleFile
  /-- The Rearranged Nibble Set (R11). -/
  r : NibbleFile
  /-- `LEN` (R21). -/
  len : BitVec 4
  /-- `BAD` (R21). -/
  bad : Bool
  /-- The Target Image (R30). -/
  image : Memory
  /-- The tokens the host offers on `CQ`, not yet accepted (R24). -/
  cq : List Token
  /-- The accepted terminator whose code is in execution (R90). -/
  executing : Option Terminator
  /-- The outstanding request, the record not yet taken (R25, R26), or the internal step still to come (R92). -/
  pending : Option Pending
  /-- The coming answers of the image device; none left means `ok` (log 6). -/
  imgAns : List ImgAnswer
  /-- The coming answers at `RPT`; none left means taken (log 7). -/
  rptAns : List RptAnswer
  /-- Whether the coming internal steps are taken at once; none left means they are (log 33). -/
  pace : List Pace
  /-- The coming moves of the host; none left means `pass` (log 11). -/
  host : List HostMove
  /-- What the host's register reads returned, oldest first (R19; log 13). -/
  readLog : List (HostReg × Nat)
  /-- The event trace, oldest first (R28; log 13). -/
  trace : List Event
  /-- The model's own counter of free values used so far (log 10). -/
  fresh : Nat
deriving DecidableEq, Repr

/-- Why the machine stops with a fault. The block's own faults (R110 to R114) are next states in `FAULT`,
not these. -/
inductive Fault where
  /-- Raised by `step` where `pending` holds something while `STATE` is not `RUN`. Safe: no run
  reaches such a state (R98, R117; log 19). -/
  | strayRequest
deriving DecidableEq, Repr

/-- Why the machine gives no meaning. -/
inductive Refusal where
  /-- Raised by `exec` for an instruction without a meaning; safe. No arm uses it. -/
  | notModelled (mnemonic : String)
  /-- Raised by `step` where the host puts a new image in place during `RUN` (R141, 93 U6; log 14); safe
  under the premise that the host keeps R141. -/
  | hostImageDuringRun
  /-- Raised by `step` where the host's image is longer than `2 ^ OFFW` bytes (R6; log 28); safe. -/
  | imageTooLong
deriving DecidableEq, Repr

/-- The state after `RESET` (R29, R130), with the defaults of R6 and with every interface quiet. The values
of `d`, `r`, the image and the model's own fields are named in logs 3, 4, 5, 6, 7, 10, 11, 13 and 33. -/
def State.reset : State where
  params := Params.default
  mode := 3
  runState := .idle
  cause := .none
  fop := .read
  base := 0x10
  cidx := 0
  foff := 0
  d := #v[0, 0, 0, 0, 0, 0, 0, 0]
  r := #v[0, 0, 0, 0, 0, 0, 0, 0]
  len := 0
  bad := false
  image := { len := 2 ^ 32, cells := [] }
  cq := []
  executing := none
  pending := none
  imgAns := []
  rptAns := []
  pace := []
  host := []
  readLog := []
  trace := []
  fresh := 0

end Sys2Proof.Machine
end

