-- ==== Sys2Proof/Machine/Flags.lean ====
section
/-! DEFINITION. The block has no flags (10_state.md R20). What stands in their place: the one comparison of
data (R68 e), and the numbers that the host sees in `STATUS` (R15, R17). -/

namespace Sys2Proof.Machine

/-- R75, R76: the byte a `GG8` code writes. The outcome of the comparison is kept nowhere (R20). -/
def compareSelect (l v c : Byte) : Byte := if l = c then v else l

/-- R15: the number of a run state. -/
def RunState.code : RunState → BitVec 2
  | .idle => 0
  | .run => 1
  | .done => 2
  | .fault => 3

/-- R17: the number of a cause. -/
def Cause.code : Cause → BitVec 6
  | .none => 0
  | .platformNotImplemented => 1
  | .invalidLength => 2
  | .imageIOError => 3
  | .offsetOverflow => 4
  | .invalidCharacter => 32

/-- R15: the number of an access kind. -/
def FaultOp.code : FaultOp → BitVec 1
  | .read => 0
  | .write => 1

/-- R15: `STATUS`, with `FOP` in bit 8, `CAUSE` in bits 7 to 2 and `STATE` in bits 1 and 0. -/
def State.status (s : State) : BitVec 9 := s.fop.code ++ s.cause.code ++ s.runState.code

end Sys2Proof.Machine
end

