-- ==== Sys2Proof/Machine/Ops.lean ====
section
/-! DEFINITION. The named operations over the image, the ports and the registers: the image as canonical
data, fault entry and `RESET`, the image requests, the report, the advance. -/

namespace Sys2Proof.Machine

/-! ### The Target Image as data -/

/-- The byte that a cell list holds at an offset. -/
def Memory.lookup : List Host.Cell → Nat → Byte
  | [], _ => Config.unlistedByte
  | (x, b) :: t, a => if a = x then b else Memory.lookup t a

/-- A cell list with one byte replaced, in canonical form. -/
def Memory.put : List Host.Cell → Nat → Byte → List Host.Cell
  | [], a, b => if b = Config.unlistedByte then [] else [(a, b)]
  | (x, y) :: t, a, b =>
    if a < x then (if b = Config.unlistedByte then (x, y) :: t else (a, b) :: (x, y) :: t)
    else if a = x then (if b = Config.unlistedByte then t else (a, b) :: t)
    else (x, y) :: Memory.put t a b

/-- The byte currently stored at an offset of the image (R33). -/
def Memory.byteAt (m : Memory) (a : Nat) : Byte := Memory.lookup m.cells a

/-- The image with one byte replaced; the length stays (R34). -/
def Memory.setByte (m : Memory) (a : Nat) (b : Byte) : Memory := { m with cells := Memory.put m.cells a b }

/-- The canonical form of a cell list: addresses strictly rise from `lo`, stay below `hi`, and no cell holds
what an unlisted byte reads as. -/
def Memory.cellsOk (hi : Nat) : Nat → List Host.Cell → Bool
  | _, [] => true
  | lo, (x, b) :: t =>
    decide (lo ≤ x) && decide (x < hi) && decide (b ≠ Config.unlistedByte) && Memory.cellsOk hi (x + 1) t

/-- The canonical form of an image. -/
def Memory.wf (m : Memory) : Bool := Memory.cellsOk m.len 0 m.cells

/-- An image of `len` bytes with the listed bytes put in one after the other; what lies beyond the end is
left out. -/
def Memory.ofCells (len : Nat) : List Host.Cell → Memory
  | [] => { len := len, cells := [] }
  | (a, b) :: t => if a < len then (Memory.ofCells len t).setByte a b else Memory.ofCells len t

/-! ### The trace, the fault entry and `RESET` -/

/-- The state with one event recorded (R28). -/
def State.record (s : State) (e : Event) : State := { s with trace := s.trace ++ [e] }

/-- Fault entry (R117): `STATE`, `CAUSE` and the event; nothing is outstanding any more; every other register
keeps its value. -/
def State.raise (s : State) (c : Cause) : State :=
  { s with
    runState := .fault
    cause := c
    executing := none
    pending := none
    trace := s.trace ++ [.fault c s.cidx] }

/-- The entry of `ImageIOError` (R113, R117), which also records the access in `FOFF` and `FOP`. -/
def State.raiseIO (s : State) (off : Nat) (op : FaultOp) : State :=
  { s with foff := off, fop := op }.raise .imageIOError

/-- The image after `RESET` (R133): unchanged, but a byte under an outstanding write holds its old or its new
value, the free value says which. -/
def State.imageAfterReset (s : State) : Memory :=
  match s.pending with
  | some (.write off w) =>
    if off < s.image.len then
      (if Config.abortedWriteLands s.fresh then s.image.setByte off w else s.image)
    else s.image
  | some (.read _ _ _) => s.image
  | some (.report _ _) => s.image
  | some (.failing _) => s.image
  | some .advance => s.image
  | some .ending => s.image
  | none => s.image

/-- `RESET` (R29, R130, R132, R133), the one way out of `FAULT` (R119): the table of R29; offered tokens and
the untaken record are discarded; what the environment will do and what it has seen stays. -/
def State.applyReset (s : State) : State :=
  { s with
    mode := 2 ^ s.params.modeW - 1
    runState := .idle
    cause := .none
    fop := .read
    base := s.params.headerSize
    cidx := 0
    foff := 0
    d := State.reset.d
    r := State.reset.r
    len := 0
    bad := false
    image := s.imageAfterReset
    cq := []
    executing := none
    pending := none
    fresh := s.fresh + 1 }

/-! ### The advance -/

/-- R96: whether the advance fits both registers. -/
def State.advanceFits (s : State) : Bool :=
  decide (s.base + s.params.bankSize < 2 ^ s.params.offw) && decide (s.cidx + 1 < 2 ^ s.params.cidxw)

/-- R96: `BASE` one bank on and `CIDX` one on, or `OffsetOverflow`. -/
def State.advance (s : State) : State :=
  if s.advanceFits then
    { s with
      base := s.base + s.params.bankSize
      cidx := s.cidx + 1 }
  else s.raise .offsetOverflow

/-- Whether the next internal step is taken at once; with nothing listed, it is (log 33). -/
def State.paceAnswer (s : State) : Pace := s.pace.headD .go

/-- The advance of a code whose record has been taken (R92), at once or at a later step. -/
def State.advanceDue (s : State) : State :=
  match s.paceAnswer with
  | .rest => { s with pace := s.pace.tail, pending := some .advance }
  | .go => { s with pace := s.pace.tail, pending := none }.advance

/-! ### The image requests and the report

Each of these looks for the answer of the environment to the request or record that stands outstanding; with
`wait` it stays outstanding (R27) and a later step looks again. -/

/-- What the image device says next; with no answer listed, `ok` (R40: `IO_FAIL` is by default never). -/
def State.imgAnswer (s : State) : ImgAnswer := s.imgAns.headD .ok

/-- What happens at `RPT` next; with no answer listed, the record is taken. -/
def State.rptAnswer (s : State) : RptAnswer := s.rptAns.headD .take

/-- The record `(off, w)` at `RPT` (R26), then the advance (R96). -/
def State.sendReport (s : State) (off : Nat) (w : Byte) : State :=
  match s.rptAnswer with
  | .wait => { s with rptAns := s.rptAns.tail, pending := some (.report off w) }
  | .take => ({ s with rptAns := s.rptAns.tail }.record (.report off w)).advanceDue

/-- The write of `w` succeeds (R34): the byte, the event, and the report follows (R92). -/
def State.writeDone (s : State) (off : Nat) (w : Byte) : State :=
  ({ s with image := s.image.setByte off w }.record (.imgWrite off w)).sendReport off w

/-- The entry of `ImageIOError` after a write that failed (R113, R117), at once or at a later step. -/
def State.writeFaultDue (s : State) (off : Nat) : State :=
  match s.paceAnswer with
  | .rest => { s with pace := s.pace.tail, pending := some (.failing off) }
  | .go => { s with pace := s.pace.tail }.raiseIO off .write

/-- The write fails (R34): inside the image the byte at the offset is any value (decision D17), outside
nothing changes; then `ImageIOError` (R113). -/
def State.writeFailed (s : State) (off : Nat) : State :=
  if off < s.image.len then
    { s with
      image := s.image.setByte off (Config.failedWriteByte s.fresh)
      fresh := s.fresh + 1 }.writeFaultDue off
  else s.writeFaultDue off

/-- `MemWrite(off, 1, w)` (R34, R39). -/
def State.memWrite (s : State) (off : Nat) (w : Byte) : State :=
  match s.imgAnswer with
  | .wait => { s with imgAns := s.imgAns.tail, pending := some (.write off w) }
  | .err => { s with imgAns := s.imgAns.tail }.writeFailed off
  | .ok =>
    if off < s.image.len then { s with imgAns := s.imgAns.tail }.writeDone off w
    else { s with imgAns := s.imgAns.tail }.writeFailed off

/-- `MemRead(off, 1)` (R33, R39), then the comparison and the write of a `GG8` code (R75). -/
def State.memReadThenWrite (s : State) (off : Nat) (v c : Byte) : State :=
  match s.imgAnswer with
  | .wait => { s with imgAns := s.imgAns.tail, pending := some (.read off v c) }
  | .err => { s with imgAns := s.imgAns.tail }.raiseIO off .read
  | .ok =>
    if off < s.image.len then
      ({ s with imgAns := s.imgAns.tail }.record (.imgRead off (s.image.byteAt off))).memWrite off
        (compareSelect (s.image.byteAt off) v c)
    else { s with imgAns := s.imgAns.tail }.raiseIO off .read

/-- The block goes on where its code stands: it looks again for the answer to what is outstanding (R27), or takes
the internal step that is still to come. -/
def State.resume (s : State) : Pending → State
  | .read off v c => s.memReadThenWrite off v c
  | .write off w => s.memWrite off w
  | .report off w => s.sendReport off w
  | .failing off => s.writeFaultDue off
  | .advance => s.advanceDue
  | .ending => { s with pending := none }

end Sys2Proof.Machine
end

