-- ==== Sys2Proof/Machine/CodePort.lean ====
section
/-! DEFINITION. The code port (42_sequencer.md R89 to R91, R98): latching characters, the code that has
arrived, the end of a code. -/

namespace Sys2Proof.Machine

/-- R89: `LEN` one up, saturating at 15. -/
def nextLen (len : BitVec 4) : BitVec 4 := BitVec.ofNat 4 (min (len.toNat + 1) 15)

/-- R89: a character outside the alphabet sets `BAD`. -/
def nextBad (bad : Bool) (c : Nat) : Bool := bad || (alpha c).isNone

/-- R89: the nibble of a character of the alphabet goes into `d[LEN]` while `LEN` is below 8. -/
def nextNibbles (d : NibbleFile) (len : BitVec 4) (c : Nat) : NibbleFile :=
  match alpha c with
  | none => d
  | some n => d.setIfInBounds len.toNat n

/-- R89: a `CHAR` token. -/
def State.latchChar (s : State) (c : Nat) : State :=
  { s with d := nextNibbles s.d s.len c, len := nextLen s.len, bad := nextBad s.bad c }

/-- R89, for each character of a sequence in order. -/
def State.latchChars (s : State) : List Nat → State
  | [] => s
  | c :: cs => (s.latchChar c).latchChars cs

/-- R91: what the characters that have arrived decode to. -/
def State.currentCode (s : State) : Decoded := decodeLatched s.d s.len s.bad

/-- R90: a terminator is accepted; its code is in execution. -/
def State.acceptTerminator (s : State) (t : Terminator) : State := { s with executing := some t }

/-- R90, R98: the end of a code executed without fault: the next code after `SEP`, `DONE` after `END`. -/
def State.endCode (s : State) (k : Terminator) : State :=
  match k with
  | .sep => { s with len := 0, bad := false, executing := none }
  | .fin => { s with runState := .done, executing := none }.record (.done s.cidx)

/-- What follows the execution of a code (R90, R98): its end, at once or at a later step. Nothing, while the code
still stands at something or after a fault. -/
def State.finishCode (s : State) : State :=
  match s.runState, s.pending, s.executing with
  | .run, none, some k =>
    match s.paceAnswer with
    | .rest => { s with pace := s.pace.tail, pending := some .ending }
    | .go => { s with pace := s.pace.tail }.endCode k
  | _, _, _ => s

/-- The state in which a code has arrived, `BAD` and `LEN` as R89 leaves them, and its `SEP` stands first on
the code port of a running block. -/
def State.placeCode (s : State) (code : List Nat) : State :=
  { ({ s with len := 0, bad := false }.latchChars code) with
    mode := s.params.modeP0
    runState := .run
    cause := .none
    executing := none
    pending := none
    cq := .sep :: s.cq
    host := .pass :: s.host }

end Sys2Proof.Machine
end

