-- ==== Sys2Proof/Machine/Operands.lean ====
section
/-! DEFINITION. The operands of a code: the nibble files it writes and its one addressing mode (R46). -/

namespace Sys2Proof.Machine

/-- R46, R61: the Final Offset, `BASE` plus the zero-extended address, where it fits `OFFW` bits. -/
def State.finalOffset (s : State) (a : Address) : Option Nat :=
  if a.toNat + s.base < 2 ^ s.params.offw then some (a.toNat + s.base) else none

/-- R70, first line: the first six registers of `d` from the nibbles of a code. -/
def latch6 (ns : List Nibble) (d : NibbleFile) : NibbleFile :=
  #v[ns.getD 0 0, ns.getD 1 0, ns.getD 2 0, ns.getD 3 0, ns.getD 4 0, ns.getD 5 0, d[6], d[7]]

/-- R75, first line: all of `d` from the nibbles of a code. -/
def latch8 (ns : List Nibble) : NibbleFile :=
  #v[ns.getD 0 0, ns.getD 1 0, ns.getD 2 0, ns.getD 3 0,
     ns.getD 4 0, ns.getD 5 0, ns.getD 6 0, ns.getD 7 0]

/-- The nibble files as the first lines of R70 leave them for `GG6`: `d[0..5]` and `r[0..5]`. -/
def State.latchGg6 (s : State) (ns : List Nibble) : State :=
  { s with d := latch6 ns s.d, r := rearrange6 (latch6 ns s.d) s.r }

/-- The nibble files as the first lines of R75 leave them for `GG8`. -/
def State.latchGg8 (s : State) (ns : List Nibble) : State :=
  { s with d := latch8 ns, r := rearrange8 (latch8 ns) }

end Sys2Proof.Machine
end

