-- ==== Sys2Proof/Machine/Gg6.lean ====
section
/-! DEFINITION. The `GG6` instruction (40_gg6.md). -/

namespace Sys2Proof.Machine

/-- R70: latch and rearrange, `OffsetOverflow` where the Final Offset does not fit, else write `V` there, then
the report and the advance. -/
def execGg6 (x : Bool) (a : Address) (v : Byte) (s : State) : Host.Outcome State Fault Refusal :=
  match s.finalOffset a with
  | none => .next ((s.latchGg6 (encodeNibbles (.gg6 x a v))).raise .offsetOverflow)
  | some fo => .next ((s.latchGg6 (encodeNibbles (.gg6 x a v))).memWrite fo v)

end Sys2Proof.Machine
end

