-- ==== Sys2Proof/Machine/Gg8.lean ====
section
/-! DEFINITION. The `GG8` instruction (41_gg8.md). -/

namespace Sys2Proof.Machine

/-- R75: latch and rearrange, `OffsetOverflow` where the Final Offset does not fit, else read there, compare,
write `V` or the byte read, then the report and the advance. -/
def execGg8 (x : Bool) (a : Address) (v c : Byte) (s : State) : Host.Outcome State Fault Refusal :=
  match s.finalOffset a with
  | none => .next ((s.latchGg8 (encodeNibbles (.gg8 x a v c))).raise .offsetOverflow)
  | some fo => .next ((s.latchGg8 (encodeNibbles (.gg8 x a v c))).memReadThenWrite fo v c)

end Sys2Proof.Machine
end

