-- ==== Sys2Proof/Machine/Dispatch.lean ====
section
/-! DEFINITION. One arm for each instruction. -/

namespace Sys2Proof.Machine

def exec (i : Instr) (s : State) : Host.Outcome State Fault Refusal :=
  match i with
  | .gg6 x a v => Sys2Proof.Machine.execGg6 x a v s
  | .gg8 x a v c => Sys2Proof.Machine.execGg8 x a v c s

end Sys2Proof.Machine
end

