-- ==== Sys2Proof/Machine/HostPort.lean ====
section
/-! DEFINITION. The `HOST` interface (10_state.md R19, R23; 42_sequencer.md R85 to R88): register reads and
writes, `START`, and the host's new image. -/

namespace Sys2Proof.Machine

/-- R19: the number of a register. -/
def HostReg.number : HostReg → Nat
  | .mode => 0
  | .status => 1
  | .base => 2
  | .cidx => 3
  | .foff => 4
  | .ctrl => 5

/-- R19: the register with a number; no other number names one. -/
def HostReg.ofNumber : Nat → Option HostReg
  | 0 => some .mode
  | 1 => some .status
  | 2 => some .base
  | 3 => some .cidx
  | 4 => some .foff
  | 5 => some .ctrl
  | _ => none

/-- R19: what a read of a register returns. -/
def State.hostRead (s : State) : HostReg → Nat
  | .mode => s.mode
  | .status => s.status.toNat
  | .base => s.base
  | .cidx => s.cidx
  | .foff => s.foff
  | .ctrl => 0

/-- The states in which the block takes a write of `MODE` and a `START` (R14, R85). -/
def State.acceptsCommands (s : State) : Bool :=
  match s.runState with
  | .idle => true
  | .run => false
  | .done => true
  | .fault => false

/-- R86, R110: `START` with a platform that has no decoder. -/
def State.startRejected (s : State) : State :=
  ({ s with base := s.params.headerSize, cidx := 0 }.record (.start s.mode)).raise .platformNotImplemented

/-- R88: the seeding of a run. -/
def State.startAccepted (s : State) : State :=
  { s with
    base := s.params.headerSize
    cidx := 0
    len := 0
    bad := false
    cause := .none
    runState := .run }.record (.start s.mode)

/-- R85: `START`, ignored in `RUN` and `FAULT`. -/
def State.start (s : State) : State :=
  if s.acceptsCommands then
    (if s.mode = s.params.modeP0 then s.startAccepted else s.startRejected)
  else s

/-- R14, R87: a write of `MODE`. -/
def State.writeMode (s : State) (v : Nat) : State :=
  if s.acceptsCommands then { s with mode := v % 2 ^ s.params.modeW } else s

/-- R19: a write of a register; a write to a read-only register is ignored. -/
def State.hostWrite (s : State) (r : HostReg) (v : Nat) : State :=
  match r with
  | .mode => s.writeMode v
  | .ctrl => if v.testBit 0 then s.start else s
  | .status => s
  | .base => s
  | .cidx => s
  | .foff => s

/-- R136, R141, R143: the host puts a new Target Image in place, outside a run. -/
def State.hostLoadImage (s : State) (len : Nat) (cells : List Host.Cell) : Host.Outcome State Fault Refusal :=
  match s.runState with
  | .run => .refused .hostImageDuringRun
  | .idle | .done | .fault =>
    if len ≤ 2 ^ s.params.offw then .next { s with image := Memory.ofCells len cells }
    else .refused .imageTooLong

/-- R24: the token that a host's offer puts on the port, whose characters have `CHAR_W` bits (log 16). -/
def Token.onPort (p : Params) : Token → Token
  | .char c => .char (c % 2 ^ p.charW)
  | .sep => .sep
  | .fin => .fin

/-- One move of the host. -/
def State.hostMove (s : State) : HostMove → Host.Outcome State Fault Refusal
  | .pass => .next s
  | .reset => .next s.applyReset
  | .write r v => .next (s.hostWrite r v)
  | .read r => .next { s with readLog := s.readLog ++ [(r, s.hostRead r)] }
  | .offer t => .next { s with cq := s.cq ++ [t.onPort s.params] }
  | .loadImage len cells => s.hostLoadImage len cells

end Sys2Proof.Machine
end

