-- ==== Sys2Proof/Machine/Sequencer.lean ====
section
/-! DEFINITION. The sequencer (42_sequencer.md): what the block does at one step, and whose turn it is. -/

namespace Sys2Proof.Machine

/-- What follows an outcome that is a next state. -/
def andThen (o : Host.Outcome State Fault Refusal) (f : State → State) : Host.Outcome State Fault Refusal :=
  match o with
  | .next s => .next (f s)
  | .fault r => .fault r
  | .refused r => .refused r

/-- R91: the execution of the code that has arrived. -/
def State.executeCode (s : State) : Host.Outcome State Fault Refusal :=
  match s.currentCode with
  | .invalidCharacter => .next (s.raise .invalidCharacter)
  | .invalidLength => .next (s.raise .invalidLength)
  | .instr i => exec i s

/-- R89, R90: the block accepts a token. -/
def State.acceptToken (s : State) : Token → Host.Outcome State Fault Refusal
  | .char c => .next (s.latchChar c)
  | .sep => andThen (s.acceptTerminator .sep).executeCode State.finishCode
  | .fin => andThen (s.acceptTerminator .fin).executeCode State.finishCode

/-- One step of the block in `RUN`: its code goes on where it stands, else the next token, else it waits
(R27, R89, R90). -/
def State.runStep (s : State) : Host.Outcome State Fault Refusal :=
  match s.pending with
  | some p => .next (s.resume p).finishCode
  | none =>
    match s.cq with
    | [] => .next s
    | t :: ts => State.acceptToken { s with cq := ts } t

/-- One step of the block. Outside `RUN` it does nothing (R98, R99, R117). -/
def State.blockStep (s : State) : Host.Outcome State Fault Refusal :=
  match s.runState with
  | .run => s.runStep
  | .idle | .done | .fault => if s.pending.isSome then .fault .strayRequest else .next s

/-- The host's next move, or the block's step where the host passes or has no move left (log 11). -/
def State.turn (s : State) : Host.Outcome State Fault Refusal :=
  match s.host with
  | [] => s.blockStep
  | .pass :: ms => State.blockStep { s with host := ms }
  | m :: ms => State.hostMove { s with host := ms } m

end Sys2Proof.Machine
end

