-- ==== Sys2Proof/Machine/Step.lean ====
section
/-! DEFINITION. The step function, and the state in which a given code is the next to run. -/

namespace Sys2Proof.Machine

/-- One step: one move of the host, one token, or one look at what is outstanding (R8). -/
def step (s : State) : Host.Outcome State Fault Refusal := s.turn

/-- `s` with the code of a table word arrived and its terminator next on the code port (log 17). -/
def State.withFetchWord (s : State) (nbits w : Nat) : State := s.placeCode (tableCode nbits w)

end Sys2Proof.Machine
end

