-- ==== Sys2Proof/Safety.lean ====
section
/-! DEFINITION. What the statements speak of: the invariant of the machine, the bank of the current code, the
token string of a code list, and the whole run as one function (42_sequencer.md R100). -/

namespace Sys2Proof.Machine

/-- The offset of an outstanding request or record; an internal step has none. -/
def Pending.off? : Pending → Option Nat
  | .read off _ _ => some off
  | .write off _ => some off
  | .report off _ => some off
  | .failing off => some off
  | .advance => none
  | .ending => none

/-- Whether an offset lies in the window that the current code can reach (R37, R38, R46): the 0x8000 offsets
from `BASE` on. -/
def State.inWindow (s : State) (a : Nat) : Prop := s.base ≤ a ∧ a < s.base + 0x8000

/-- A token the port can carry: its character has `CHAR_W` bits (R24). -/
def Token.fits (p : Params) : Token → Bool
  | .char c => decide (c < 2 ^ p.charW)
  | .sep => true
  | .fin => true

/-- Every value is one its register or port can hold at the widths chosen (R6, R12 to R14, R18, R24, R30). -/
structure State.Bounded (s : State) : Prop where
  base : s.base < 2 ^ s.params.offw
  cidx : s.cidx < 2 ^ s.params.cidxw
  foff : s.foff < 2 ^ s.params.offw
  mode : s.mode < 2 ^ s.params.modeW
  image : s.image.len ≤ 2 ^ s.params.offw
  pending : ∀ p off, s.pending = some p → p.off? = some off → off < 2 ^ s.params.offw
  tokens : ∀ k ∈ s.cq, k.fits s.params = true

/-- The invariant of the machine between two steps. -/
structure State.Inv (s : State) : Prop where
  /-- The parameters are a choice that makes a block. -/
  params_wf : s.params.wf = true
  /-- The image is in canonical form. -/
  image_wf : s.image.wf = true
  /-- Every value fits its width. -/
  bounded : s.Bounded
  /-- R12: `BASE = HEADER_SIZE + CIDX * BANK_SIZE`. -/
  base_eq : s.base = s.params.headerSize + s.cidx * s.params.bankSize
  /-- R16, R17: a cause is shown in `FAULT` and only there. -/
  cause_iff : s.cause = .none ↔ s.runState ≠ .fault
  /-- R86: while a run is in progress the selector is the one that has a decoder. -/
  mode_run : s.runState = .run → s.mode = s.params.modeP0
  /-- R98, R117: something is outstanding only during a run. -/
  pending_run : s.pending.isSome → s.runState = .run
  /-- R90, R92: a code is in execution between two steps exactly when it stands at something. -/
  executing_iff : s.executing.isSome = s.pending.isSome
  /-- R38: what is outstanding lies in the window of the current code. -/
  pending_window : ∀ p off, s.pending = some p → p.off? = some off → s.inWindow off

/-- The host makes no move at this step. -/
def State.passes (s : State) : Prop := s.host.headD .pass = .pass

/-- The environment answers at once and nothing fails (R27, R40 at its default), the block takes its internal
steps at once, and nothing is outstanding. -/
structure State.quietEnv (s : State) : Prop where
  imgAns : s.imgAns = []
  rptAns : s.rptAns = []
  pace : s.pace = []
  pending : s.pending = none

/-- A state without its Rearranged Nibble Set, which nothing reads before it is written (R11, 93 U3). -/
def State.eraseRearranged (s : State) : State := { s with r := State.reset.r }

/-- A state without its nibble files. -/
def State.eraseNibbles (s : State) : State := { s with d := State.reset.d, r := State.reset.r }

/-- The pair of an `ImgWrite` event (R28). -/
def Event.written? : Event → Option (Nat × Byte)
  | .imgWrite off v => some (off, v)
  | .start _ | .imgRead _ _ | .report _ _ | .fault _ _ | .done _ => none

/-- The pair of a `Report` event (R28). -/
def Event.reported? : Event → Option (Nat × Byte)
  | .report off v => some (off, v)
  | .start _ | .imgRead _ _ | .imgWrite _ _ | .fault _ _ | .done _ => none

/-- Whether an event is an `ImgRead` (R28). -/
def Event.isRead : Event → Bool
  | .imgRead _ _ => true
  | .start _ | .imgWrite _ _ | .report _ _ | .fault _ _ | .done _ => false

/-- The tokens of a code list (R24). -/
def tokensOf : List (List Nat) → List Token
  | [] => [.fin]
  | [code] => code.map .char ++ [.fin]
  | code :: codes => code.map .char ++ .sep :: tokensOf codes

/-- The result of R100: the final `(STATE, CAUSE, CIDX, BASE)`, the failing access, the image, the trace. -/
structure RunResult where
  runState : RunState
  cause : Cause
  cidx : Nat
  base : Nat
  /-- The failing access, where the fault is `ImageIOError`: `FOFF` and `FOP`. -/
  access : Option (Nat × FaultOp)
  image : Memory
  trace : List Event
deriving DecidableEq, Repr

/-- R100: the fault return. -/
def RunResult.failed (cause : Cause) (cidx base : Nat) (access : Option (Nat × FaultOp)) (img : Memory)
    (trace : List Event) : RunResult :=
  { runState := .fault, cause := cause, cidx := cidx, base := base, access := access, image := img,
    trace := trace ++ [.fault cause cidx] }

/-- R100: what one legal code does to the image and the trace, and the failing access where there is one; `fo`
is its Final Offset. -/
def RunResult.patch (i : Instr) (fo : Nat) (img : Memory) (trace : List Event) :
    Memory × List Event × Option FaultOp :=
  match i with
  | .gg6 _ _ v =>
    if fo < img.len then
      (img.setByte fo v, trace ++ [.imgWrite fo v, .report fo v], none)
    else (img, trace, some .write)
  | .gg8 _ _ v c =>
    if fo < img.len then
      let l := img.byteAt fo
      let w := if l = c then v else l
      (img.setByte fo w, trace ++ [.imgRead fo l, .imgWrite fo w, .report fo w], none)
    else (img, trace, some .read)

/-- The address operand of an instruction (R58). -/
def addressOf : Instr → Address
  | .gg6 _ a _ => a
  | .gg8 _ a _ _ => a

/-- R100: the loop over the codes. -/
def runFrom (p : Params) : List (List Nat) → Nat → Nat → Memory → List Event → RunResult
  | [], cidx, base, img, trace =>
    { runState := .done, cause := .none, cidx := cidx, base := base, access := none, image := img,
      trace := trace ++ [.done cidx] }
  | code :: codes, cidx, base, img, trace =>
    match decodeCode code with
    | .invalidCharacter => .failed .invalidCharacter cidx base none img trace
    | .invalidLength => .failed .invalidLength cidx base none img trace
    | .instr i =>
      let fo := (addressOf i).toNat + base
      if 2 ^ p.offw ≤ fo then .failed .offsetOverflow cidx base none img trace
      else
        match RunResult.patch i fo img trace with
        | (img', trace', some op) => .failed .imageIOError cidx base (some (fo, op)) img' trace'
        | (img', trace', none) =>
          if 2 ^ p.offw ≤ base + p.bankSize ∨ 2 ^ p.cidxw ≤ cidx + 1 then
            .failed .offsetOverflow cidx base none img' trace'
          else runFrom p codes (cidx + 1) (base + p.bankSize) img' trace'

/-- R100: the whole run. -/
def runCodes (p : Params) (mode : Nat) (codes : List (List Nat)) (img : Memory) : RunResult :=
  if mode = p.modeP0 then runFrom p codes 0 p.headerSize img [.start mode]
  else .failed .platformNotImplemented 0 p.headerSize none img [.start mode]

end Sys2Proof.Machine
end

