-- ==== Sys2Proof/Certificates/Slice0/Obligations.lean ====
section
/-! DEFINITION. The statements for the provers. -/

open Sys2Proof Sys2Proof.Machine

/-! ### Codes: alphabet, classification, fields (30_encoding.md) -/

/-- R50: the lookup gives the position of a character in the alphabet, and none for every other character; the
alphabet has the port codes of the rule's table. -/
def Obligations.AlphabetLookupIsPosition : Prop :=
  (∀ (c : Nat) (n : Nibble), alpha c = some n ↔ Config.alphabet[n.toNat]? = some c) ∧
  (∀ c : Nat, alpha c = none ↔ c ∉ Config.alphabet) ∧
  Config.alphabet =
    [0x41, 0x50, 0x5A, 0x4C, 0x47, 0x49, 0x54, 0x59, 0x45, 0x4F, 0x58, 0x55, 0x4B, 0x53, 0x56, 0x4E]

/-- R53: the classification of every character sequence in the rule's order, and its token-by-token form. -/
def Obligations.ClassificationInRuleOrder : Prop :=
  (∀ code : List Nat, (∃ c ∈ code, alpha c = none) → classify code = .invalidCharacter) ∧
  (∀ code : List Nat, (∀ c ∈ code, alpha c ≠ none) →
    (code.length = 6 → classify code = .gg6) ∧
    (code.length = 8 → classify code = .gg8) ∧
    (code.length ≠ 6 → code.length ≠ 8 → classify code = .invalidLength)) ∧
  (∀ len : BitVec 4,
    classifyLatched len true = .invalidCharacter ∧
    (len = 6 → classifyLatched len false = .gg6) ∧
    (len = 8 → classifyLatched len false = .gg8) ∧
    (len ≠ 6 → len ≠ 8 → classifyLatched len false = .invalidLength))

/-- Words of 95_test_vectors.md (S3, S4, S11, S12, E4, E6, E7) decode to the fields that its tables give. -/
def Obligations.SampleWordsDecode : Prop :=
  decodeTableWord 24 0xDA5919 = some (.gg6 false 0x11D9 0xAD) ∧
  decodeTableWord 24 0x012345 = some (.gg6 false 0x3524 0x10) ∧
  decodeTableWord 24 0x653142 = some (.gg6 false 0x1234 0x56) ∧
  decodeTableWord 24 0x65B142 = some (.gg6 true 0x1234 0x56) ∧
  decodeTableWord 32 0x89ABCDEF = some (.gg8 true 0x3DAC 0x98 0xFE) ∧
  decodeTableWord 32 0x28A17430 = some (.gg8 true 0x14A7 0x02 0x03) ∧
  decodeTableWord 32 0xDA591900 = some (.gg8 false 0x11D9 0xA5 0x08)

/-- R56, R57: the rearrangement formulas of both forms (`r[5]` of `GG8` from `d[7]`, 90_conflicts.md C1), and
`r[0]` has bit 3 clear. -/
def Obligations.RearrangementFormulas : Prop :=
  ∀ d r : NibbleFile,
    (rearrange6 d r)[0] = d[3] &&& 0x7#4 ∧
    (rearrange6 d r)[1] = (d[5] &&& 0x7#4) ||| (d[4] &&& 0x8#4) ∧
    (rearrange6 d r)[2] = (d[2] &&& 0x7#4) ||| (d[1] &&& 0x8#4) ∧
    (rearrange6 d r)[3] = (d[4] &&& 0x7#4) ||| (d[3] &&& 0x8#4) ∧
    (rearrange6 d r)[4] = (d[1] &&& 0x7#4) ||| (d[0] &&& 0x8#4) ∧
    (rearrange6 d r)[5] = (d[0] &&& 0x7#4) ||| (d[5] &&& 0x8#4) ∧
    (rearrange6 d r)[0].getLsbD 3 = false ∧
    (rearrange8 d)[0] = d[3] &&& 0x7#4 ∧
    (rearrange8 d)[1] = (d[5] &&& 0x7#4) ||| (d[4] &&& 0x8#4) ∧
    (rearrange8 d)[2] = (d[2] &&& 0x7#4) ||| (d[1] &&& 0x8#4) ∧
    (rearrange8 d)[3] = (d[4] &&& 0x7#4) ||| (d[3] &&& 0x8#4) ∧
    (rearrange8 d)[4] = (d[1] &&& 0x7#4) ||| (d[0] &&& 0x8#4) ∧
    (rearrange8 d)[5] = (d[0] &&& 0x7#4) ||| (d[7] &&& 0x8#4) ∧
    (rearrange8 d)[6] = (d[7] &&& 0x7#4) ||| (d[6] &&& 0x8#4) ∧
    (rearrange8 d)[7] = (d[6] &&& 0x7#4) ||| (d[5] &&& 0x8#4) ∧
    (rearrange8 d)[0].getLsbD 3 = false

/-- R59, R60: value and compare byte as numbers, each byte reachable in each form. -/
def Obligations.ValueAndCompareAssembled : Prop :=
  (∀ r : NibbleFile,
    (assembleValue r).toNat = r[4].toNat * 16 + r[5].toNat ∧
    (assembleCompare r).toNat = r[6].toNat * 16 + r[7].toNat) ∧
  (∀ v : Byte, ∃ d : NibbleFile, ∀ r : NibbleFile, assembleValue (rearrange6 d r) = v) ∧
  (∀ v c : Byte, ∃ d : NibbleFile, assembleValue (rearrange8 d) = v ∧ assembleCompare (rearrange8 d) = c)

/-- R58: the decoded address as a number, at most 0x7FFF in both forms (the bound is the rule's own inference
from R56). -/
def Obligations.AddressAssembledBelow8000 : Prop :=
  (∀ r : NibbleFile, (assembleAddress r).toNat =
    r[0].toNat * 4096 + r[1].toNat * 256 + r[2].toNat * 16 + r[3].toNat) ∧
  (∀ d r : NibbleFile, (assembleAddress (rearrange6 d r)).toNat ≤ 0x7FFF) ∧
  (∀ d : NibbleFile, (assembleAddress (rearrange8 d)).toNat ≤ 0x7FFF)

/-- R54 (the spec marks the table as derived): every field bit of every 24-bit word `W6`. -/
def Obligations.FieldBitsOfW6 : Prop :=
  ∀ w : BitVec 24, ∃ (a : Address) (v : Byte),
    decodeTableWord 24 w.toNat = some (.gg6 (w.getLsbD 15) a v) ∧
    a.getLsbD 15 = false ∧
    a.extractLsb' 12 3 = w.extractLsb' 8 3 ∧
    a.getLsbD 11 = w.getLsbD 7 ∧
    a.extractLsb' 8 3 = w.extractLsb' 0 3 ∧
    a.getLsbD 7 = w.getLsbD 19 ∧
    a.extractLsb' 4 3 = w.extractLsb' 12 3 ∧
    a.getLsbD 3 = w.getLsbD 11 ∧
    a.extractLsb' 0 3 = w.extractLsb' 4 3 ∧
    v.getLsbD 7 = w.getLsbD 23 ∧
    v.extractLsb' 4 3 = w.extractLsb' 16 3 ∧
    v.getLsbD 3 = w.getLsbD 3 ∧
    v.extractLsb' 0 3 = w.extractLsb' 20 3

/-- R55 (the spec marks the table as derived): every field bit of every 32-bit word `W8`. -/
def Obligations.FieldBitsOfW8 : Prop :=
  ∀ w : BitVec 32, ∃ (a : Address) (v c : Byte),
    decodeTableWord 32 w.toNat = some (.gg8 (w.getLsbD 23) a v c) ∧
    a.getLsbD 15 = false ∧
    a.extractLsb' 12 3 = w.extractLsb' 16 3 ∧
    a.getLsbD 11 = w.getLsbD 15 ∧
    a.extractLsb' 8 3 = w.extractLsb' 8 3 ∧
    a.getLsbD 7 = w.getLsbD 27 ∧
    a.extractLsb' 4 3 = w.extractLsb' 20 3 ∧
    a.getLsbD 3 = w.getLsbD 19 ∧
    a.extractLsb' 0 3 = w.extractLsb' 12 3 ∧
    v.getLsbD 7 = w.getLsbD 31 ∧
    v.extractLsb' 4 3 = w.extractLsb' 24 3 ∧
    v.getLsbD 3 = w.getLsbD 3 ∧
    v.extractLsb' 0 3 = w.extractLsb' 28 3 ∧
    c.getLsbD 7 = w.getLsbD 7 ∧
    c.extractLsb' 4 3 = w.extractLsb' 0 3 ∧
    c.getLsbD 3 = w.getLsbD 11 ∧
    c.extractLsb' 0 3 = w.extractLsb' 4 3

/-- R66 (derived): decoding the code of a well-formed instruction gives it back, with every operand. -/
def Obligations.DecodeOfEncodeIsIdentity : Prop :=
  ∀ i : Instr, i.wf = true → decodeCode (encode i) = .instr i

/-- R63 (derived): a legal code is the code of the instruction it decodes to, which is well formed; so no two
codes decode alike, but for the ignored bit that the instruction keeps. -/
def Obligations.EncodeOfDecodeIsIdentity : Prop :=
  ∀ (code : List Nat) (i : Instr), decodeCode code = .instr i → encode i = code ∧ i.wf = true

/-- R21 (decision D21): taking the characters one by one with `LEN` and `BAD` decodes every sequence, of any
length, as the whole code does, whatever the nibble file held. -/
def Obligations.LatchedCodeDecodesAsWholeCode : Prop :=
  ∀ (s : State) (code : List Nat),
    ({ s with len := 0, bad := false }.latchChars code).currentCode = decodeCode code

/-- R62 (derived; decision D22): the high bit of the third nibble changes no field of either form, and an
execution does not depend on it but for the nibble file itself. -/
def Obligations.IgnoredBitChangesNothing : Prop :=
  (∀ (d : NibbleFile) (n : Nibble), n &&& 0x7#4 = d[2] &&& 0x7#4 →
    (∀ r : NibbleFile, rearrange6 (d.set 2 n) r = rearrange6 d r) ∧
    rearrange8 (d.set 2 n) = rearrange8 d) ∧
  (∀ (a : Address) (v : Byte) (s : State),
    andThen (exec (.gg6 true a v) s) State.eraseNibbles = andThen (exec (.gg6 false a v) s) State.eraseNibbles) ∧
  (∀ (a : Address) (v c : Byte) (s : State),
    andThen (exec (.gg8 true a v c) s) State.eraseNibbles =
      andThen (exec (.gg8 false a v c) s) State.eraseNibbles)

/-! ### The two instructions -/

/-- R70: the `GG6` instruction, whole: what its first lines leave in `d` and `r`; `OffsetOverflow` before any
access; `ImageIOError` of the write with no report and no advance; else the write, the report and the advance
(this clause is its completion), or `OffsetOverflow` of the advance after the report; the two places where it can
wait for an answer (R27); the worked example.
The model's own choice are the clauses with `paceAnswer = .rest`, where the advance or the fault entry of a failed
write is still to come (log 33), and that a request beyond the end of the image uses an answer of the device
(log 29). -/
def Obligations.Gg6FollowsItsPseudocode : Prop :=
  (∀ (x : Bool) (a : Address) (v : Byte) (s : State), addressFits a = true →
    let code := encode (.gg6 x a v)
    let d' : NibbleFile := #v[nibbleAt code 0, nibbleAt code 1, nibbleAt code 2, nibbleAt code 3,
      nibbleAt code 4, nibbleAt code 5, s.d[6], s.d[7]]
    let r' := rearrange6 d' s.r
    assembleAddress r' = a ∧ assembleValue r' = v ∧
    (2 ^ s.params.offw ≤ a.toNat + s.base →
      exec (.gg6 x a v) s = .next { s with
        d := d', r := r', runState := .fault, cause := .offsetOverflow, executing := none, pending := none,
        trace := s.trace ++ [.fault .offsetOverflow s.cidx] }) ∧
    (∀ fo : Nat, fo = a.toNat + s.base → fo < 2 ^ s.params.offw →
      (s.imgAnswer = .err ∨ (s.imgAnswer = .ok ∧ s.image.len ≤ fo) →
        ∃ img fr,
          (s.paceAnswer = .go → exec (.gg6 x a v) s = .next { s with
            d := d', r := r', runState := .fault, cause := .imageIOError, foff := fo, fop := .write,
            executing := none, pending := none, imgAns := s.imgAns.tail, pace := s.pace.tail, image := img,
            fresh := fr, trace := s.trace ++ [.fault .imageIOError s.cidx] }) ∧
          (s.paceAnswer = .rest → exec (.gg6 x a v) s = .next { s with
            d := d', r := r', pending := some (.failing fo), imgAns := s.imgAns.tail, pace := s.pace.tail,
            image := img, fresh := fr }) ∧
          img.len = s.image.len ∧
          (∀ b, b ≠ fo → img.byteAt b = s.image.byteAt b) ∧
          (s.image.len ≤ fo → img = s.image)) ∧
      (s.imgAnswer = .ok → fo < s.image.len → s.rptAnswer = .take →
        (s.paceAnswer = .go →
          s.base + s.params.bankSize < 2 ^ s.params.offw → s.cidx + 1 < 2 ^ s.params.cidxw →
          exec (.gg6 x a v) s = .next { s with
            d := d', r := r', image := s.image.setByte fo v, pending := none,
            imgAns := s.imgAns.tail, rptAns := s.rptAns.tail, pace := s.pace.tail,
            base := s.base + s.params.bankSize,
            cidx := s.cidx + 1,
            trace := s.trace ++ [.imgWrite fo v, .report fo v] }) ∧
        (s.paceAnswer = .go →
          2 ^ s.params.offw ≤ s.base + s.params.bankSize ∨ 2 ^ s.params.cidxw ≤ s.cidx + 1 →
          exec (.gg6 x a v) s = .next { s with
            d := d', r := r', image := s.image.setByte fo v, pending := none, executing := none,
            imgAns := s.imgAns.tail, rptAns := s.rptAns.tail, pace := s.pace.tail,
            runState := .fault, cause := .offsetOverflow,
            trace := s.trace ++ [.imgWrite fo v, .report fo v, .fault .offsetOverflow s.cidx] }) ∧
        (s.paceAnswer = .rest → exec (.gg6 x a v) s = .next { s with
          d := d', r := r', image := s.image.setByte fo v, pending := some .advance,
          imgAns := s.imgAns.tail, rptAns := s.rptAns.tail, pace := s.pace.tail,
          trace := s.trace ++ [.imgWrite fo v, .report fo v] })) ∧
      (s.imgAnswer = .wait → exec (.gg6 x a v) s = .next { s with
        d := d', r := r', pending := some (.write fo v), imgAns := s.imgAns.tail }) ∧
      (s.imgAnswer = .ok → fo < s.image.len → s.rptAnswer = .wait → exec (.gg6 x a v) s = .next { s with
        d := d', r := r', image := s.image.setByte fo v, pending := some (.report fo v),
        imgAns := s.imgAns.tail, rptAns := s.rptAns.tail, trace := s.trace ++ [.imgWrite fo v] }))) ∧
  (nibbleFile [0x53, 0x58, 0x49, 0x4F, 0x50, 0x4F] = #v[13, 10, 5, 9, 1, 9, 0, 0] ∧
    rearrange6 #v[13, 10, 5, 9, 1, 9, 0, 0] #v[0, 0, 0, 0, 0, 0, 0, 0] = #v[1, 1, 13, 9, 10, 13, 0, 0] ∧
    decodeCode [0x53, 0x58, 0x49, 0x4F, 0x50, 0x4F] = .instr (.gg6 false 0x11D9 0xAD) ∧
    State.reset.finalOffset 0x11D9 = some 0x11E9)

/-- R75: the `GG8` instruction, whole: `d` and `r`; `OffsetOverflow` before any access; `ImageIOError` of the
read with no write; then the byte read decides what is written: `ImageIOError` of the write with no report;
else write, report and advance (its completion), or `OffsetOverflow` of the advance; the three places where it
can wait for an answer (R27); the worked example.
The model's own choice are the clauses with `paceAnswer = .rest`, where the advance or the fault entry of a failed
write is still to come (log 33), and that a request beyond the end of the image uses an answer of the device
(log 29). -/
def Obligations.Gg8FollowsItsPseudocode : Prop :=
  (∀ (x : Bool) (a : Address) (v c : Byte) (s : State), addressFits a = true →
    let code := encode (.gg8 x a v c)
    let d' := nibbleFile code
    let r' := rearrange8 d'
    assembleAddress r' = a ∧ assembleValue r' = v ∧ assembleCompare r' = c ∧
    (2 ^ s.params.offw ≤ a.toNat + s.base →
      exec (.gg8 x a v c) s = .next { s with
        d := d', r := r', runState := .fault, cause := .offsetOverflow, executing := none, pending := none,
        trace := s.trace ++ [.fault .offsetOverflow s.cidx] }) ∧
    (∀ fo : Nat, fo = a.toNat + s.base → fo < 2 ^ s.params.offw →
      let l := s.image.byteAt fo
      let w := if l = c then v else l
      (s.imgAnswer = .err ∨ (s.imgAnswer = .ok ∧ s.image.len ≤ fo) →
        exec (.gg8 x a v c) s = .next { s with
          d := d', r := r', runState := .fault, cause := .imageIOError, foff := fo, fop := .read,
          executing := none, pending := none, imgAns := s.imgAns.tail,
          trace := s.trace ++ [.fault .imageIOError s.cidx] }) ∧
      (s.imgAnswer = .ok → fo < s.image.len →
        (s.imgAns.tail.headD .ok = .err →
          ∃ img fr,
            (s.paceAnswer = .go → exec (.gg8 x a v c) s = .next { s with
              d := d', r := r', runState := .fault, cause := .imageIOError, foff := fo, fop := .write,
              executing := none, pending := none, imgAns := s.imgAns.tail.tail, pace := s.pace.tail,
              image := img, fresh := fr, trace := s.trace ++ [.imgRead fo l, .fault .imageIOError s.cidx] }) ∧
            (s.paceAnswer = .rest → exec (.gg8 x a v c) s = .next { s with
              d := d', r := r', pending := some (.failing fo), imgAns := s.imgAns.tail.tail,
              pace := s.pace.tail, image := img, fresh := fr, trace := s.trace ++ [.imgRead fo l] }) ∧
            img.len = s.image.len ∧ (∀ b, b ≠ fo → img.byteAt b = s.image.byteAt b)) ∧
        (s.imgAns.tail.headD .ok = .ok → s.rptAnswer = .take →
          (s.paceAnswer = .go →
            s.base + s.params.bankSize < 2 ^ s.params.offw → s.cidx + 1 < 2 ^ s.params.cidxw →
            exec (.gg8 x a v c) s = .next { s with
              d := d', r := r', image := s.image.setByte fo w, pending := none,
              imgAns := s.imgAns.tail.tail, rptAns := s.rptAns.tail, pace := s.pace.tail,
              base := s.base + s.params.bankSize,
              cidx := s.cidx + 1,
              trace := s.trace ++ [.imgRead fo l, .imgWrite fo w, .report fo w] }) ∧
          (s.paceAnswer = .go →
            2 ^ s.params.offw ≤ s.base + s.params.bankSize ∨ 2 ^ s.params.cidxw ≤ s.cidx + 1 →
            exec (.gg8 x a v c) s = .next { s with
              d := d', r := r', image := s.image.setByte fo w, pending := none, executing := none,
              imgAns := s.imgAns.tail.tail, rptAns := s.rptAns.tail, pace := s.pace.tail,
              runState := .fault, cause := .offsetOverflow,
              trace := s.trace ++
                [.imgRead fo l, .imgWrite fo w, .report fo w, .fault .offsetOverflow s.cidx] }) ∧
          (s.paceAnswer = .rest → exec (.gg8 x a v c) s = .next { s with
            d := d', r := r', image := s.image.setByte fo w, pending := some .advance,
            imgAns := s.imgAns.tail.tail, rptAns := s.rptAns.tail, pace := s.pace.tail,
            trace := s.trace ++ [.imgRead fo l, .imgWrite fo w, .report fo w] })) ∧
        (s.imgAns.tail.headD .ok = .wait → exec (.gg8 x a v c) s = .next { s with
          d := d', r := r', pending := some (.write fo w), imgAns := s.imgAns.tail.tail,
          trace := s.trace ++ [.imgRead fo l] }) ∧
        (s.imgAns.tail.headD .ok = .ok → s.rptAnswer = .wait → exec (.gg8 x a v c) s = .next { s with
          d := d', r := r', image := s.image.setByte fo w, pending := some (.report fo w),
          imgAns := s.imgAns.tail.tail, rptAns := s.rptAns.tail,
          trace := s.trace ++ [.imgRead fo l, .imgWrite fo w] })) ∧
      (s.imgAnswer = .wait → exec (.gg8 x a v c) s = .next { s with
        d := d', r := r', pending := some (.read fo v c), imgAns := s.imgAns.tail }))) ∧
  (nibbleFile [0x5A, 0x45, 0x58, 0x50, 0x59, 0x47, 0x4C, 0x41] = #v[2, 8, 10, 1, 7, 4, 3, 0] ∧
    rearrange8 #v[2, 8, 10, 1, 7, 4, 3, 0] = #v[1, 4, 10, 7, 0, 2, 0, 3] ∧
    decodeCode [0x5A, 0x45, 0x58, 0x50, 0x59, 0x47, 0x4C, 0x41] = .instr (.gg8 true 0x14A7 0x02 0x03) ∧
    State.reset.finalOffset 0x14A7 = some 0x14B7)

/-- The frame of `GG6`, on every path (completed, faulted, waiting): no register but `d[0..5]`, `r[0..5]`,
`BASE`, `CIDX` and the fault's changes, and no byte of the image but the one at the Final Offset; where the
Final Offset does not fit, none. -/
def Obligations.Gg6Frame : Prop :=
  ∀ (x : Bool) (a : Address) (v : Byte) (s t : State), exec (.gg6 x a v) s = .next t →
    t.params = s.params ∧ t.mode = s.mode ∧ t.len = s.len ∧ t.bad = s.bad ∧ t.cq = s.cq ∧ t.host = s.host ∧
    t.readLog = s.readLog ∧ t.d[6] = s.d[6] ∧ t.d[7] = s.d[7] ∧ t.r[6] = s.r[6] ∧ t.r[7] = s.r[7] ∧
    (t.runState ≠ .fault → t.runState = s.runState ∧ t.cause = s.cause ∧ t.executing = s.executing) ∧
    (t.cause ≠ .imageIOError → t.foff = s.foff ∧ t.fop = s.fop) ∧
    ((t.base = s.base ∧ t.cidx = s.cidx) ∨
      (t.base = s.base + s.params.bankSize ∧ t.cidx = s.cidx + 1)) ∧
    t.image.len = s.image.len ∧
    (∀ fo, s.finalOffset a = some fo → ∀ b, b ≠ fo → t.image.byteAt b = s.image.byteAt b) ∧
    (s.finalOffset a = none → t.image = s.image)

/-- The frame of `GG8`, on every path: as for `GG6`, with all of `d` and `r` the code's own. -/
def Obligations.Gg8Frame : Prop :=
  ∀ (x : Bool) (a : Address) (v c : Byte) (s t : State), exec (.gg8 x a v c) s = .next t →
    t.params = s.params ∧ t.mode = s.mode ∧ t.len = s.len ∧ t.bad = s.bad ∧ t.cq = s.cq ∧ t.host = s.host ∧
    t.readLog = s.readLog ∧
    (t.runState ≠ .fault → t.runState = s.runState ∧ t.cause = s.cause ∧ t.executing = s.executing) ∧
    (t.cause ≠ .imageIOError → t.foff = s.foff ∧ t.fop = s.fop) ∧
    ((t.base = s.base ∧ t.cidx = s.cidx) ∨
      (t.base = s.base + s.params.bankSize ∧ t.cidx = s.cidx + 1)) ∧
    t.image.len = s.image.len ∧
    (∀ fo, s.finalOffset a = some fo → ∀ b, b ≠ fo → t.image.byteAt b = s.image.byteAt b) ∧
    (s.finalOffset a = none → t.image = s.image)

/-- R27, R70, R75: a code whose first image request is not answered at once keeps it outstanding, with no event
and no change of the image; when the block looks again it goes on exactly as if the answer had come at once. -/
def Obligations.WaitingCodeGoesOnUnchanged : Prop :=
  ∀ (i : Instr) (s : State) (as : List ImgAnswer) (fo : Nat),
    s.finalOffset (addressOf i) = some fo → s.imgAns = .wait :: as →
    ∃ t p, exec i s = .next t ∧ t.pending = some p ∧ p.off? = some fo ∧ t.trace = s.trace ∧ t.image = s.image ∧
      t.base = s.base ∧ t.cidx = s.cidx ∧ exec i { s with imgAns := as } = .next (t.resume p)

/-- R27, R92, R146: a request or a record that is not answered at once stays outstanding, and when the answer comes
the block goes on as if it had come at once: the read, the write, the report; and so with an advance and with the
fault entry of a failed write that are not taken at once (log 33). -/
def Obligations.OutstandingRequestGoesOnUnchanged : Prop :=
  (∀ (s : State) (as : List ImgAnswer) (off : Nat) (v c : Byte), s.imgAns = .wait :: as →
    (s.memReadThenWrite off v c).pending = some (.read off v c) ∧
    (s.memReadThenWrite off v c).trace = s.trace ∧
    (s.memReadThenWrite off v c).resume (.read off v c) =
      State.memReadThenWrite { s with imgAns := as } off v c) ∧
  (∀ (s : State) (as : List ImgAnswer) (off : Nat) (w : Byte), s.imgAns = .wait :: as →
    (s.memWrite off w).pending = some (.write off w) ∧ (s.memWrite off w).trace = s.trace ∧
    (s.memWrite off w).resume (.write off w) = State.memWrite { s with imgAns := as } off w) ∧
  (∀ (s : State) (as : List RptAnswer) (off : Nat) (w : Byte), s.rptAns = .wait :: as →
    (s.sendReport off w).pending = some (.report off w) ∧ (s.sendReport off w).trace = s.trace ∧
    (s.sendReport off w).resume (.report off w) = State.sendReport { s with rptAns := as } off w) ∧
  (∀ (s : State) (ps : List Pace), s.pace = .rest :: ps →
    s.advanceDue.pending = some .advance ∧ s.advanceDue.trace = s.trace ∧
    s.advanceDue.base = s.base ∧ s.advanceDue.cidx = s.cidx ∧
    s.advanceDue.resume .advance = State.advanceDue { s with pace := ps }) ∧
  (∀ (s : State) (ps : List Pace) (off : Nat), s.pace = .rest :: ps →
    (s.writeFaultDue off).pending = some (.failing off) ∧ (s.writeFaultDue off).trace = s.trace ∧
    (s.writeFaultDue off).image = s.image ∧
    (s.writeFaultDue off).resume (.failing off) = State.writeFaultDue { s with pace := ps } off)

/-- R71, R70 ("No image read occurs for this form"): a `GG6` execution does not depend on the bytes of the image. -/
def Obligations.Gg6IgnoresImageContents : Prop :=
  ∀ (x : Bool) (a : Address) (v : Byte) (s t t' : State) (m : Memory), m.len = s.image.len →
    exec (.gg6 x a v) s = .next t → exec (.gg6 x a v) { s with image := m } = .next t' →
    { t' with image := t.image } = t

/-- R78: a `GG8` execution depends on one byte of the image, the one at its Final Offset. -/
def Obligations.Gg8DependsOnOneByte : Prop :=
  ∀ (x : Bool) (a : Address) (v c : Byte) (s t t' : State) (m : Memory), m.len = s.image.len →
    (∀ fo, s.finalOffset a = some fo → m.byteAt fo = s.image.byteAt fo) →
    exec (.gg8 x a v c) s = .next t → exec (.gg8 x a v c) { s with image := m } = .next t' →
    { t' with image := t.image } = t

/-- R79 (derived), at the default of the oracle (never fails, R40): a second application of a `GG8` code at the
same `BASE`, to the image the first left, leaves the image as it is. -/
def Obligations.Gg8IsIdempotentOnContent : Prop :=
  ∀ (x : Bool) (a : Address) (v c : Byte) (s t s2 t2 : State), s.image.wf = true → s.quietEnv →
    exec (.gg8 x a v c) s = .next t →
    s2.quietEnv → s2.params = s.params → s2.base = s.base → s2.image = t.image →
    exec (.gg8 x a v c) s2 = .next t2 → t2.image = t.image

/-- R38 (derived), R12: with banks of at least 0x8000 bytes two codes at different positions never have the same
Final Offset, whatever their addresses. -/
def Obligations.PositionsNeverShareAnOffset : Prop :=
  ∀ (s t : State) (a b : Address) (fo go : Nat), s.Inv → t.Inv → t.params = s.params →
    0x8000 ≤ s.params.bankSize → addressFits a = true → addressFits b = true → s.cidx ≠ t.cidx →
    s.finalOffset a = some fo → t.finalOffset b = some go → fo ≠ go

/-! ### Shared operations -/

/-- R34 (decision D17 for the failed byte, of which nothing is said): `MemWrite`, with its wait and its failure.
The model's own choice is the clause with `paceAnswer = .rest`, where the fault entry of a failed write is still to
come (log 33), and that a request beyond the end of the image uses an answer of the device (log 29). -/
def Obligations.MemWriteRule : Prop :=
  ∀ (s : State) (off : Nat) (w : Byte), s.image.wf = true →
    (s.imgAnswer = .wait → s.memWrite off w =
      { s with imgAns := s.imgAns.tail, pending := some (.write off w) }) ∧
    (s.imgAnswer = .ok → off < s.image.len →
      (s.memWrite off w).image.byteAt off = w ∧
      (∀ b, b ≠ off → (s.memWrite off w).image.byteAt b = s.image.byteAt b) ∧
      (s.memWrite off w).image.len = s.image.len ∧
      (s.trace ++ [.imgWrite off w]) <+: (s.memWrite off w).trace) ∧
    (s.imgAnswer = .err ∨ (s.imgAnswer = .ok ∧ s.image.len ≤ off) →
      (s.paceAnswer = .go →
        (s.memWrite off w).runState = .fault ∧ (s.memWrite off w).cause = .imageIOError ∧
        (s.memWrite off w).foff = off ∧ (s.memWrite off w).fop = .write ∧
        (s.memWrite off w).trace = s.trace ++ [.fault .imageIOError s.cidx]) ∧
      (s.paceAnswer = .rest →
        (s.memWrite off w).runState = s.runState ∧ (s.memWrite off w).pending = some (.failing off) ∧
        (s.memWrite off w).trace = s.trace) ∧
      (s.memWrite off w).image.len = s.image.len ∧
      (∀ b, b ≠ off → (s.memWrite off w).image.byteAt b = s.image.byteAt b) ∧
      (s.image.len ≤ off → (s.memWrite off w).image = s.image))

/-- R33: `MemRead`, as the read of a `GG8` code performs it: the byte currently stored goes into the event and
into the comparison, the read itself changes no byte; a failed read faults and nothing is written. -/
def Obligations.MemReadRule : Prop :=
  ∀ (s : State) (off : Nat) (v c : Byte),
    (s.imgAnswer = .ok → off < s.image.len →
      s.memReadThenWrite off v c =
        State.memWrite { s with
          imgAns := s.imgAns.tail, trace := s.trace ++ [.imgRead off (s.image.byteAt off)] } off
          (if s.image.byteAt off = c then v else s.image.byteAt off)) ∧
    (s.imgAnswer = .err ∨ (s.imgAnswer = .ok ∧ s.image.len ≤ off) →
      (s.memReadThenWrite off v c).runState = .fault ∧ (s.memReadThenWrite off v c).cause = .imageIOError ∧
      (s.memReadThenWrite off v c).foff = off ∧ (s.memReadThenWrite off v c).fop = .read ∧
      (s.memReadThenWrite off v c).trace = s.trace ++ [.fault .imageIOError s.cidx] ∧
      (s.memReadThenWrite off v c).image = s.image)

/-- R96: the advance moves `BASE` by one bank and `CIDX` by one, or raises `OffsetOverflow` and moves neither;
at the defaults it first faults at `CIDX = 131071`. -/
def Obligations.AdvanceRule : Prop :=
  (∀ s : State, s.base + s.params.bankSize < 2 ^ s.params.offw → s.cidx + 1 < 2 ^ s.params.cidxw →
    s.advance.base = s.base + s.params.bankSize ∧ s.advance.cidx = s.cidx + 1 ∧
    { s.advance with base := s.base, cidx := s.cidx } = s) ∧
  (∀ s : State, 2 ^ s.params.offw ≤ s.base + s.params.bankSize ∨ 2 ^ s.params.cidxw ≤ s.cidx + 1 →
    s.advance.runState = .fault ∧ s.advance.cause = .offsetOverflow ∧ s.advance.base = s.base ∧
    s.advance.cidx = s.cidx ∧ s.advance.image = s.image) ∧
  (∀ s : State, s.params = Params.default → s.base = 0x10 + s.cidx * 0x8000 →
    ((s.base + s.params.bankSize < 2 ^ s.params.offw ∧ s.cidx + 1 < 2 ^ s.params.cidxw) ↔ s.cidx < 131071))

/-- R117: fault entry, and what the block does from then on: nothing. -/
def Obligations.FaultEntryRecordsAndStops : Prop :=
  (∀ (s : State) (c : Cause), s.raise c = { s with
    runState := .fault, cause := c, executing := none, pending := none, trace := s.trace ++ [.fault c s.cidx] }) ∧
  (∀ (s : State) (off : Nat) (op : FaultOp), s.raiseIO off op = { s with
    runState := .fault, cause := .imageIOError, foff := off, fop := op, executing := none, pending := none,
    trace := s.trace ++ [.fault .imageIOError s.cidx] }) ∧
  (∀ s : State, s.runState = .fault → s.pending = none → s.passes → step s = .next { s with host := s.host.tail })

/-! ### Steps of the sequencer -/

/-- R90, R91: where the host makes no move and a terminator stands first on the code port of a running block with
nothing outstanding, one step is `exec` of the instruction the arrived characters decode to, on the state in
which the terminator is accepted, followed by `finishCode`. -/
def Obligations.StepExecutesTheDecodedCode : Prop :=
  ∀ (s : State) (i : Instr) (ts : List Token), s.passes → s.runState = .run → s.pending = none →
    s.currentCode = .instr i →
    (s.cq = .sep :: ts → step s =
      andThen (exec i { s with host := s.host.tail, cq := ts, executing := some .sep }) State.finishCode) ∧
    (s.cq = .fin :: ts → step s =
      andThen (exec i { s with host := s.host.tail, cq := ts, executing := some .fin }) State.finishCode)

/-- The state `withFetchWord` builds runs exactly the code of the word at the next step (the placing is the
model's own, log 17). -/
def Obligations.PlacedWordIsTheNextCode : Prop :=
  ∀ (s : State) (nbits w : Nat) (i : Instr), decodeTableWord nbits w = some i →
    step (s.withFetchWord nbits w) =
      andThen (exec i { s.withFetchWord nbits w with host := s.host, cq := s.cq, executing := some .sep })
        State.finishCode

/-- R111, R112, R91: at the terminator of an illegal code the block enters `FAULT`, with no image access, no
report and no advance, and the later tokens stay unaccepted. A bad character at any position wins over the length. -/
def Obligations.IllegalCodeFaultsWithoutEffect : Prop :=
  ∀ (s0 : State) (code : List Nat) (ts : List Token) (fin : Bool),
    let s := { s0 with len := 0, bad := false }.latchChars code
    s.passes → s.runState = .run → s.pending = none → s.cq = (if fin then .fin else .sep) :: ts →
    ((∃ c ∈ code, alpha c = none) → step s = .next { s with
      host := s.host.tail, cq := ts, runState := .fault, cause := .invalidCharacter, executing := none,
      trace := s.trace ++ [.fault .invalidCharacter s.cidx] }) ∧
    ((∀ c ∈ code, alpha c ≠ none) → code.length ≠ 6 → code.length ≠ 8 → step s = .next { s with
      host := s.host.tail, cq := ts, runState := .fault, cause := .invalidLength, executing := none,
      trace := s.trace ++ [.fault .invalidLength s.cidx] })

/-- R89: a `CHAR` token: the nibble goes into `d[LEN]` below 8, `BAD` is set by a character outside the alphabet,
`LEN` saturates at 15; no event and no fault. -/
def Obligations.CharTokenIsLatched : Prop :=
  ∀ (s : State) (c : Nat) (ts : List Token), s.passes → s.runState = .run → s.pending = none →
    s.cq = .char c :: ts →
    ∃ d', step s = .next { s with
        host := s.host.tail, cq := ts, d := d', len := BitVec.ofNat 4 (min (s.len.toNat + 1) 15),
        bad := s.bad || (alpha c).isNone } ∧
      (∀ k : Fin 8, d'[k] = if (alpha c).isSome ∧ k.val = s.len.toNat then (alpha c).getD 0 else s.d[k])

/-- R90, R98: the end of a code that was executed without fault: after `SEP`, `LEN` and `BAD` are cleared and the
run goes on; after `END` the run is `DONE` with the event. So for a code that ends in the step of its terminator and
for one that waited (R27), whose steps are `resume` and then the same end. While a code waits no token is accepted.
The model's own choice is the clause with `paceAnswer = .rest`, where the end is still to come (log 33). -/
def Obligations.TerminatorEndsCodeOrRun : Prop :=
  (∀ (s : State) (p : Pending), s.passes → s.runState = .run → s.pending = some p →
    step s = .next (State.resume { s with host := s.host.tail } p).finishCode) ∧
  (∀ s t : State, s.passes → s.runState = .run →
    ((∃ p, s.pending = some p ∧ t = State.resume { s with host := s.host.tail } p) ∨
      ∃ k i ts, s.pending = none ∧ s.currentCode = .instr i ∧
        s.cq = (match k with | .sep => .sep | .fin => .fin) :: ts ∧
        exec i { s with host := s.host.tail, cq := ts, executing := some k } = .next t) →
    (t.runState = .run → t.pending = none →
      (t.executing = some .sep → t.paceAnswer = .go → step s = .next { t with
        len := 0, bad := false, executing := none, pace := t.pace.tail }) ∧
      (t.executing = some .fin → t.paceAnswer = .go → step s = .next { t with
        runState := .done, executing := none, pace := t.pace.tail, trace := t.trace ++ [.done t.cidx] }) ∧
      (t.executing.isSome → t.paceAnswer = .rest → step s = .next { t with
        pending := some .ending, pace := t.pace.tail })) ∧
    (t.runState ≠ .run ∨ t.pending.isSome → step s = .next t)) ∧
  (∀ (s t : State) (p : Pending), s.passes → s.runState = .run → s.pending = some p → step s = .next t →
    t.cq = s.cq)

/-- R27: while an answer or a token is missing the block keeps everything; so it does while it has not yet taken the
advance, the fault entry of a failed write or the end of a code (R146, log 33). -/
def Obligations.WaitingChangesNothing : Prop :=
  (∀ s : State, s.passes → s.runState = .run → s.pending = none → s.cq = [] →
    step s = .next { s with host := s.host.tail }) ∧
  (∀ (s : State) (off : Nat) (v c : Byte), s.passes → s.runState = .run → s.pending = some (.read off v c) →
    s.imgAnswer = .wait → step s = .next { s with host := s.host.tail, imgAns := s.imgAns.tail }) ∧
  (∀ (s : State) (off : Nat) (w : Byte), s.passes → s.runState = .run → s.pending = some (.write off w) →
    s.imgAnswer = .wait → step s = .next { s with host := s.host.tail, imgAns := s.imgAns.tail }) ∧
  (∀ (s : State) (off : Nat) (w : Byte), s.passes → s.runState = .run → s.pending = some (.report off w) →
    s.rptAnswer = .wait → step s = .next { s with host := s.host.tail, rptAns := s.rptAns.tail }) ∧
  (∀ (s : State) (off : Nat), s.passes → s.runState = .run → s.pending = some (.failing off) →
    s.paceAnswer = .rest → step s = .next { s with host := s.host.tail, pace := s.pace.tail }) ∧
  (∀ s : State, s.passes → s.runState = .run → s.pending = some .advance → s.paceAnswer = .rest →
    step s = .next { s with host := s.host.tail, pace := s.pace.tail }) ∧
  (∀ s : State, s.passes → s.runState = .run → s.pending = some .ending → s.executing.isSome →
    s.paceAnswer = .rest → step s = .next { s with host := s.host.tail, pace := s.pace.tail })

/-- R98, R99: outside `RUN` the block does nothing by itself; offered tokens stay with the host. -/
def Obligations.NothingHappensOutsideRun : Prop :=
  ∀ s : State, s.runState ≠ .run → s.pending = none → s.passes → step s = .next { s with host := s.host.tail }

/-! ### Host commands -/

/-- R85, R86, R88, R110: `START` is a write of `CTRL` with bit 0 set: accepted in `IDLE` and `DONE`, where it
seeds a run or faults with `PlatformNotImplemented`; ignored in `RUN` and `FAULT`. That the faulting `START` leaves
`LEN` and `BAD` as they are is the model's reading of R117 against R21 (log 30, DEDUCED). -/
def Obligations.StartSeedsOrFaults : Prop :=
  ∀ (s : State) (n : Nat) (ms : List HostMove), s.host = .write .ctrl n :: ms → n % 2 = 1 →
    (s.runState = .idle ∨ s.runState = .done →
      (s.mode = s.params.modeP0 → step s = .next { s with
        host := ms, base := s.params.headerSize, cidx := 0, len := 0, bad := false, cause := .none,
        runState := .run, trace := s.trace ++ [.start s.mode] }) ∧
      (s.mode ≠ s.params.modeP0 → step s = .next { s with
        host := ms, base := s.params.headerSize, cidx := 0, runState := .fault,
        cause := .platformNotImplemented, executing := none, pending := none,
        trace := s.trace ++ [.start s.mode, .fault .platformNotImplemented 0] })) ∧
    (s.runState = .run ∨ s.runState = .fault → step s = .next { s with host := ms })

/-- R87, R14: a write of `MODE` stores the low `MODE_W` bits in `IDLE` and `DONE` and is ignored in `RUN` and `FAULT`; the
reset value selects no decoder. -/
def Obligations.ModeWriteRule : Prop :=
  (∀ (s : State) (n : Nat) (ms : List HostMove), s.host = .write .mode n :: ms →
    (s.runState = .idle ∨ s.runState = .done →
      step s = .next { s with host := ms, mode := n % 2 ^ s.params.modeW }) ∧
    (s.runState = .run ∨ s.runState = .fault → step s = .next { s with host := ms })) ∧
  (∀ (s : State) (ms : List HostMove), s.params.wf = true → s.host = .reset :: ms →
    ∃ t, step s = .next t ∧ t.mode ≠ t.params.modeP0)

/-- R19: the register numbers, what a read returns and that it changes nothing of the block, that a write to a
read-only register, of `CTRL` without bit 0 and of `MODE` in `RUN` and `FAULT` is ignored, that `MODE` is written in
`IDLE` and `DONE`, that only bit 0 of `CTRL` counts, and the reset values. -/
def Obligations.RegisterMapRule : Prop :=
  (∀ (r : HostReg) (n : Nat), HostReg.ofNumber n = some r ↔ r.number = n) ∧
  (HostReg.number .mode = 0 ∧ HostReg.number .status = 1 ∧ HostReg.number .base = 2 ∧
    HostReg.number .cidx = 3 ∧ HostReg.number .foff = 4 ∧ HostReg.number .ctrl = 5) ∧
  (∀ (s : State) (r : HostReg) (ms : List HostMove), s.host = .read r :: ms →
    ∃ n, step s = .next { s with host := ms, readLog := s.readLog ++ [(r, n)] } ∧
      n = match r with
        | .mode => s.mode
        | .status => s.status.toNat
        | .base => s.base
        | .cidx => s.cidx
        | .foff => s.foff
        | .ctrl => 0) ∧
  (∀ (s : State) (r : HostReg) (n : Nat) (ms : List HostMove), s.host = .write r n :: ms →
    (r = .status ∨ r = .base ∨ r = .cidx ∨ r = .foff ∨ (r = .ctrl ∧ n % 2 = 0) ∨
      (r = .mode ∧ (s.runState = .run ∨ s.runState = .fault))) →
    step s = .next { s with host := ms }) ∧
  (∀ (s : State) (n : Nat) (ms : List HostMove), s.host = .write .mode n :: ms →
    s.runState = .idle ∨ s.runState = .done →
    step s = .next { s with host := ms, mode := n % 2 ^ s.params.modeW }) ∧
  (∀ (s : State) (n : Nat) (ms : List HostMove), s.host = .write .ctrl n :: ms → n % 2 = 1 →
    step s = step { s with host := .write .ctrl 1 :: ms }) ∧
  (State.reset.hostRead .mode = 3 ∧ State.reset.hostRead .status = 0 ∧ State.reset.hostRead .base = 0x10 ∧
    State.reset.hostRead .cidx = 0 ∧ State.reset.hostRead .foff = 0)

/-- R15, R17: the fields of `STATUS` and their numbers. -/
def Obligations.StatusFieldsRule : Prop :=
  ∀ s : State,
    s.status.toNat % 4 = (match s.runState with | .idle => 0 | .run => 1 | .done => 2 | .fault => 3) ∧
    s.status.toNat / 4 % 64 = (match s.cause with
      | .none => 0 | .platformNotImplemented => 1 | .invalidLength => 2 | .imageIOError => 3
      | .offsetOverflow => 4 | .invalidCharacter => 32) ∧
    s.status.toNat / 256 = (match s.fop with | .read => 0 | .write => 1)

/-- R29, R130 (the files `d` and `r` are unspecified there and are not spoken of): the reset state and a `RESET`
in any state; tokens and an untaken record are discarded; the image stays unless a write is outstanding. -/
def Obligations.ResetGivesTheTable : Prop :=
  (State.reset.runState = .idle ∧ State.reset.cause = .none ∧ State.reset.fop = .read ∧
    State.reset.base = State.reset.params.headerSize ∧ State.reset.base = 0x10 ∧ State.reset.cidx = 0 ∧
    State.reset.foff = 0 ∧ State.reset.mode = 3 ∧ State.reset.len = 0 ∧ State.reset.bad = false ∧
    State.reset.cq = [] ∧ State.reset.pending = none) ∧
  (∀ (s : State) (ms : List HostMove), s.host = .reset :: ms → ∃ t, step s = .next t ∧
    t.runState = .idle ∧ t.cause = .none ∧ t.fop = .read ∧ t.base = s.params.headerSize ∧ t.cidx = 0 ∧
    t.foff = 0 ∧ t.mode = 2 ^ s.params.modeW - 1 ∧ t.len = 0 ∧ t.bad = false ∧ t.cq = [] ∧ t.executing = none ∧ t.pending = none ∧
    t.params = s.params ∧ t.trace = s.trace ∧ t.host = ms ∧
    ((∀ off w, s.pending ≠ some (.write off w)) → t.image = s.image))

/-- R133 (decision D16): a `RESET` during a run. The byte under an outstanding write holds its old or its new
value, every other byte stays; no event is recorded, no report is sent, tokens are discarded. -/
def Obligations.ResetDuringRunKeepsOldOrNewByte : Prop :=
  ∀ (s t : State) (ms : List HostMove), s.image.wf = true → s.runState = .run → s.host = .reset :: ms →
    step s = .next t →
    t.runState = .idle ∧ t.trace = s.trace ∧ t.cq = [] ∧ t.pending = none ∧ t.image.len = s.image.len ∧
    (∀ b, (∀ off w, s.pending = some (.write off w) → b ≠ off) → t.image.byteAt b = s.image.byteAt b) ∧
    (∀ off w, s.pending = some (.write off w) →
      t.image.byteAt off = s.image.byteAt off ∨ t.image.byteAt off = w)

/-- R119: no step leaves `FAULT` but a `RESET`; whatever else the host does, the cause, the registers and the
trace stay, and the image stays unless the host itself puts a new one in place; `RESET` clears the cause and all
else of the last run. -/
def Obligations.FaultIsLeftOnlyByReset : Prop :=
  (∀ s t : State, s.runState = .fault → s.host.headD .pass ≠ .reset → step s = .next t →
    t.runState = .fault ∧ t.cause = s.cause ∧ t.fop = s.fop ∧ t.foff = s.foff ∧ t.base = s.base ∧
    t.cidx = s.cidx ∧ t.mode = s.mode ∧ t.trace = s.trace ∧ t.pending = s.pending ∧
    ((∀ len cells, s.host.headD .pass ≠ .loadImage len cells) → t.image = s.image)) ∧
  (∀ (s : State) (ms : List HostMove), s.runState = .fault → s.host = .reset :: ms →
    ∃ t, step s = .next t ∧ t.runState = .idle ∧ t.cause = .none ∧ t.fop = .read ∧ t.foff = 0 ∧ t.cidx = 0 ∧
      t.base = s.params.headerSize ∧ t.len = 0 ∧ t.bad = false ∧ t.cq = [])

/-- R141, 93 U6 (the form of the host's move is the model's own, log 14): a new image during a run is refused;
outside a run it is put in place and changes nothing else, unless it is longer than `2 ^ OFFW` bytes (R6, log 28). -/
def Obligations.HostImageOnlyOutsideRun : Prop :=
  ∀ (s : State) (len : Nat) (cells : List Host.Cell) (ms : List HostMove), s.host = .loadImage len cells :: ms →
    (s.runState = .run → step s = .refused .hostImageDuringRun) ∧
    (s.runState ≠ .run → len ≤ 2 ^ s.params.offw →
      ∃ m : Memory, step s = .next { s with host := ms, image := m } ∧ m.len = len ∧ m.wf = true ∧
        ∀ a, a < len → m.byteAt a = Memory.lookup cells a) ∧
    (s.runState ≠ .run → 2 ^ s.params.offw < len → step s = .refused .imageTooLong)

/-! ### Invariants and rules about every step -/

/-- The reset state meets the invariant. (That its image is canonical rests on the model's choice of logs 4, 5.) -/
def Obligations.ResetMeetsInvariant : Prop := State.reset.Inv

/-- Every step keeps the invariant: canonical image, every value within its width (R6), `BASE = HEADER_SIZE + CIDX *
BANK_SIZE` (R12), a cause exactly in `FAULT` (R16, R17), the selector of a running block (R86), nothing outstanding
outside a run (R98, R117), what is outstanding lies in the current window (R38). -/
def Obligations.StepKeepsInvariant : Prop :=
  ∀ s t : State, s.Inv → step s = .next t → t.Inv

/-- From a state that meets the invariant every step gives a next state, but for a new image that the host puts in
place during a run (R141, log 14) or that is longer than `2 ^ OFFW` bytes (R6, log 28), which is refused. -/
def Obligations.OnlyAHostImageStopsAStep : Prop :=
  ∀ s : State, s.Inv →
    (∃ t, step s = .next t) ∨
    ∃ len cells ms, s.host = .loadImage len cells :: ms ∧
      ((s.runState = .run ∧ step s = .refused .hostImageDuringRun) ∨
        (s.runState ≠ .run ∧ 2 ^ s.params.offw < len ∧ step s = .refused .imageTooLong))

/-- R38, R46 (R38 is derived): unless the host puts a new image in place, a step changes no byte outside the
window of the current code, and so none of the header. -/
def Obligations.StepsStoreOnlyInTheWindow : Prop :=
  ∀ s t : State, s.Inv → (∀ len cells, s.host.headD .pass ≠ .loadImage len cells) → step s = .next t →
    (∀ b, ¬ s.inWindow b → t.image.byteAt b = s.image.byteAt b) ∧
    (∀ b, b < s.params.headerSize → t.image.byteAt b = s.image.byteAt b)

/-- R30, R34: the image is never resized by the block. -/
def Obligations.ImageIsNeverResized : Prop :=
  ∀ s t : State, (∀ len cells, s.host.headD .pass ≠ .loadImage len cells) → step s = .next t →
    t.image.len = s.image.len

/-- R12, R13, R94: `CIDX` and `BASE` change together: by an advance of a running block, or to the seed by `START`
or `RESET`; nothing else writes them. -/
def Obligations.IndexMovesOnlyByAdvanceStartReset : Prop :=
  ∀ s t : State, step s = .next t →
    (t.cidx = s.cidx ∧ t.base = s.base) ∨
    (s.runState = .run ∧ t.cidx = s.cidx + 1 ∧
      t.base = s.base + s.params.bankSize) ∨
    (t.cidx = 0 ∧ t.base = s.params.headerSize ∧
      (s.host.head? = some .reset ∨ ∃ n, s.host.head? = some (.write .ctrl n)))

/-- R14, R86, R123: only the host's own write in `IDLE` or `DONE` and `RESET` change `MODE`, and nothing changes
the parameters. -/
def Obligations.ModeChangesOnlyByHost : Prop :=
  ∀ s t : State, step s = .next t →
    t.params = s.params ∧
    (t.mode ≠ s.mode → s.host.head? = some .reset ∨
      ((s.runState = .idle ∨ s.runState = .done) ∧ ∃ n, s.host.head? = some (.write .mode n)))

/-- R24, R97: the code port is taken in order: a step leaves the offered tokens, takes the first, or the host adds
one at the end; only `RESET` discards them; a token is taken only in `RUN` with nothing outstanding. A token that the
host offers is added, whatever the block is doing, and nothing else changes (its character has `CHAR_W` bits, log 16). -/
def Obligations.TokensAreTakenInOrder : Prop :=
  (∀ s t : State, step s = .next t →
    (t.cq = s.cq ∧ ∀ k, s.host.head? ≠ some (.offer k)) ∨
    (t.cq = s.cq.tail ∧ s.runState = .run ∧ s.pending = none ∧ s.passes) ∨
    (∃ k, t.cq = s.cq ++ [k.onPort s.params] ∧ s.host.head? = some (.offer k)) ∨
    (t.cq = [] ∧ s.host.head? = some .reset)) ∧
  (∀ (s : State) (k : Token) (ms : List HostMove), s.host = .offer k :: ms →
    step s = .next { s with host := ms, cq := s.cq ++ [k.onPort s.params] } ∧
    (k.fits s.params = true → k.onPort s.params = k))

/-- The trace only grows at its end. The events are R28's; that one trace goes on across runs and is kept by `RESET`
is the model's own choice (log 13), since the trace of R28 is that of one run. -/
def Obligations.TraceOnlyGrows : Prop :=
  ∀ s t : State, step s = .next t → s.trace <+: t.trace

/-- R11 (derived): `r[0]` has its bit 3 clear in every state that follows one in which it is clear (it is in the
model's reset state, log 3). -/
def Obligations.RearrangedHighBitStaysClear : Prop :=
  (∀ s t : State, s.r[0].getLsbD 3 = false → step s = .next t → t.r[0].getLsbD 3 = false) ∧
  State.reset.r[0].getLsbD 3 = false

/-- R11, 93 U3: no step reads the Rearranged Nibble Set a state holds; two states that differ in it alone step to
the same outcome but for it. -/
def Obligations.RearrangedSetIsNeverRead : Prop :=
  ∀ (s : State) (r : NibbleFile),
    andThen (step { s with r := r }) State.eraseRearranged = andThen (step s) State.eraseRearranged

/-! ### The whole run -/

/-- R100 (derived): from `START` in `IDLE` or `DONE`, with the tokens of any non-empty code list on the code port
and an environment that answers at once and never fails, the steps of the machine give the result of the rule's
function: state, cause, `CIDX`, `BASE`, the failing access, the image and the trace. -/
def Obligations.RunAgreesWithRunFunction : Prop :=
  ∀ (s : State) (codes : List (List Nat)), codes ≠ [] → s.acceptsCommands = true → s.quietEnv →
    s.host = [.write .ctrl 1] → s.cq = tokensOf codes →
    ∃ t : State, Host.Core.run Sys2Proof.core (1 + (tokensOf codes).length) s = .next t ∧
      t.runState = (runCodes s.params s.mode codes s.image).runState ∧
      t.cause = (runCodes s.params s.mode codes s.image).cause ∧
      t.cidx = (runCodes s.params s.mode codes s.image).cidx ∧
      t.base = (runCodes s.params s.mode codes s.image).base ∧
      t.image = (runCodes s.params s.mode codes s.image).image ∧
      t.trace = s.trace ++ (runCodes s.params s.mode codes s.image).trace ∧
      (match (runCodes s.params s.mode codes s.image).access with
        | some (off, op) => t.foff = off ∧ t.fop = op
        | none => t.foff = s.foff ∧ t.fop = s.fop)

/-- R98, R101 (derived): a run of `n` codes that ends in `DONE` has `CIDX = n`, `BASE = HEADER_SIZE + n*BANK_SIZE`,
no cause and nothing outstanding. Its trace has exactly `n` image writes: write `k` is that of code `k`, at the Final
Nat `HEADER_SIZE + k*BANK_SIZE + A` of its address, with `V` for `GG6`, and for `GG8` with `V` or the byte that a
recorded read found there, as the comparison says. The same `n` pairs are reported in the same order, and there is one
read for each code of eight characters. An image byte at no such offset is as it was. -/
def Obligations.DoneRunAppliedEveryCode : Prop :=
  ∀ (s t : State) (codes : List (List Nat)), codes ≠ [] → s.acceptsCommands = true → s.quietEnv →
    s.host = [.write .ctrl 1] → s.cq = tokensOf codes →
    Host.Core.run Sys2Proof.core (1 + (tokensOf codes).length) s = .next t → t.runState = .done →
    t.cidx = codes.length ∧
    t.base = s.params.headerSize + codes.length * s.params.bankSize ∧
    t.cause = .none ∧ t.pending = none ∧
    ∃ evs, t.trace = s.trace ++ evs ∧
      (evs.filterMap Event.written?).length = codes.length ∧
      (∀ (k : Nat) (code : List Nat), codes[k]? = some code →
        ∃ i off w, decodeCode code = .instr i ∧
          off = s.params.headerSize + k * s.params.bankSize + (addressOf i).toNat ∧
          (evs.filterMap Event.written?)[k]? = some (off, w) ∧
          (match i with
            | .gg6 _ _ v => w = v
            | .gg8 _ _ v c => ∃ l, .imgRead off l ∈ evs ∧ w = if l = c then v else l)) ∧
      evs.filterMap Event.reported? = evs.filterMap Event.written? ∧
      evs.countP Event.isRead = codes.countP (fun code => code.length == 8) ∧
      (∀ b, (∀ p ∈ evs.filterMap Event.written?, p.1 ≠ b) → t.image.byteAt b = s.image.byteAt b)
end

