-- ==== Sys2Proof/Laws/Decode.lean ====
section
/-! SUPPORT. The alphabet both ways, and the shape of encoded codes. -/

namespace Sys2Proof

/-- R50: the lookup finds the value of a symbol. -/
@[simp] theorem alpha_symbol (n : Nibble) : alpha (symbol n) = some n := by
  revert n; decide

/-- R50: a character with a value is the symbol of that value. -/
theorem symbol_of_alpha {c : Nat} {n : Nibble} (h : alpha c = some n) : symbol n = c := by
  obtain ⟨k, hk, rfl⟩ := Option.map_eq_some_iff.1 h
  obtain ⟨hlt, hc, -⟩ := List.findIdx?_eq_some_iff_getElem.1 hk
  have hk16 : k < 16 := hlt
  have hn : (BitVec.ofNat 4 k).toNat = k := by simpa using hk16
  simp only [symbol, hn, List.getElem?_eq_getElem hlt, Option.getD_some]
  simpa using hc

/-- No symbol is outside the alphabet. -/
theorem symbols_legal (ns : List Nibble) : (ns.map symbol).any (fun c => (alpha c).isNone) = false := by
  simp

/-- A code of symbols only is classified by its length (R53). -/
theorem classify_symbols (ns : List Nibble) : classify (ns.map symbol) =
    if ns.length = 6 then .gg6 else if ns.length = 8 then .gg8 else .invalidLength := by
  simp [classify]

@[simp] theorem encodeNibbles_gg6_length (x : Bool) (a : Address) (v : Byte) :
    (encodeNibbles (.gg6 x a v)).length = 6 := rfl

@[simp] theorem encodeNibbles_gg8_length (x : Bool) (a : Address) (v c : Byte) :
    (encodeNibbles (.gg8 x a v c)).length = 8 := rfl

@[simp] theorem encode_length (i : Instr) : (encode i).length = (encodeNibbles i).length := by
  simp [encode]

/-- The nibble of a character of an encoded code. -/
theorem nibbleAt_symbols (ns : List Nibble) (k : Nat) : nibbleAt (ns.map symbol) k = ns.getD k 0 := by
  simp only [nibbleAt, List.getElem?_map, List.getD_eq_getElem?_getD]
  cases ns[k]? <;> simp

/-- A nibble is its high bit and its low three bits. -/
theorem joinNibble_eta (n : Nibble) : joinNibble (n.getLsbD 3) (n.extractLsb' 0 3) = n := by
  revert n; decide

/-- The two parts of a joined nibble, as the masks of R56 and R57 read them. -/
theorem joinNibble_masks (h : Bool) (l : BitVec 3) :
    joinNibble h l &&& 0x7#4 = BitVec.setWidth 4 l ∧ joinNibble h l &&& 0x8#4 = joinNibble h 0 := by
  revert h l; decide

/-! ### Bits of the shared helpers -/

/-- The low three bits of a mixed nibble come from its first source (R56, R57). -/
theorem mixed_low (m n : Nibble) : ((m &&& 0x7#4) ||| (n &&& 0x8#4)).extractLsb' 0 3 = m.extractLsb' 0 3 := by
  revert m n; decide

/-- The high bit of a mixed nibble comes from its second source (R56, R57). -/
theorem mixed_high (m n : Nibble) : ((m &&& 0x7#4) ||| (n &&& 0x8#4)).getLsbD 3 = n.getLsbD 3 := by
  revert m n; decide

theorem masked_low (m : Nibble) : (m &&& 0x7#4).extractLsb' 0 3 = m.extractLsb' 0 3 := by
  revert m; decide

theorem masked_high (m : Nibble) : (m &&& 0x7#4).getLsbD 3 = false := by
  revert m; decide

theorem joinNibble_high (h : Bool) (l : BitVec 3) : (joinNibble h l).getLsbD 3 = h := by
  revert h l; decide

theorem joinNibble_low (h : Bool) (l : BitVec 3) : (joinNibble h l).extractLsb' 0 3 = l := by
  revert h l; decide

theorem joinByte_toNat (a b : Nibble) : (joinByte a b).toNat = a.toNat * 16 + b.toNat := by
  revert a b; decide

theorem joinByte_bit7 (a b : Nibble) : (joinByte a b).getLsbD 7 = a.getLsbD 3 := by
  revert a b; decide

theorem joinByte_bits4 (a b : Nibble) : (joinByte a b).extractLsb' 4 3 = a.extractLsb' 0 3 := by
  revert a b; decide

theorem joinByte_bit3 (a b : Nibble) : (joinByte a b).getLsbD 3 = b.getLsbD 3 := by
  revert a b; decide

theorem joinByte_bits0 (a b : Nibble) : (joinByte a b).extractLsb' 0 3 = b.extractLsb' 0 3 := by
  revert a b; decide

theorem assembleAddress_bit15 (r : NibbleFile) : (assembleAddress r).getLsbD 15 = r[0].getLsbD 3 := by
  simp [assembleAddress]

theorem assembleAddress_bits12 (r : NibbleFile) :
    (assembleAddress r).extractLsb' 12 3 = r[0].extractLsb' 0 3 := by
  apply BitVec.eq_of_getLsbD_eq
  intro i hi
  interval_cases i <;> simp [assembleAddress]

theorem assembleAddress_bit11 (r : NibbleFile) : (assembleAddress r).getLsbD 11 = r[1].getLsbD 3 := by
  simp [assembleAddress]

theorem assembleAddress_bits8 (r : NibbleFile) :
    (assembleAddress r).extractLsb' 8 3 = r[1].extractLsb' 0 3 := by
  apply BitVec.eq_of_getLsbD_eq
  intro i hi
  interval_cases i <;> simp [assembleAddress]

theorem assembleAddress_bit7 (r : NibbleFile) : (assembleAddress r).getLsbD 7 = r[2].getLsbD 3 := by
  simp [assembleAddress]

theorem assembleAddress_bits4 (r : NibbleFile) :
    (assembleAddress r).extractLsb' 4 3 = r[2].extractLsb' 0 3 := by
  apply BitVec.eq_of_getLsbD_eq
  intro i hi
  interval_cases i <;> simp [assembleAddress]

theorem assembleAddress_bit3 (r : NibbleFile) : (assembleAddress r).getLsbD 3 = r[3].getLsbD 3 := by
  simp [assembleAddress]

theorem assembleAddress_bits0 (r : NibbleFile) :
    (assembleAddress r).extractLsb' 0 3 = r[3].extractLsb' 0 3 := by
  apply BitVec.eq_of_getLsbD_eq
  intro i hi
  interval_cases i <;> simp [assembleAddress]

/-- Two bytes that agree in the four parts the codes carry are equal. -/
theorem byte_ext {v w : Byte} (h7 : v.getLsbD 7 = w.getLsbD 7) (h4 : v.extractLsb' 4 3 = w.extractLsb' 4 3)
    (h3 : v.getLsbD 3 = w.getLsbD 3) (h0 : v.extractLsb' 0 3 = w.extractLsb' 0 3) : v = w := by
  have key : ∀ v : Byte, v = joinByte (joinNibble (v.getLsbD 7) (v.extractLsb' 4 3))
      (joinNibble (v.getLsbD 3) (v.extractLsb' 0 3)) := by decide
  rw [key v, key w, h7, h4, h3, h0]

end Sys2Proof
end

