-- ==== Sys2Proof/Laws/Memory.lean ====
section
/-! SUPPORT. The image as canonical data: read after write, the frame of a write, every operation keeps the
canonical form, and equal images are equal data. -/

namespace Sys2Proof.Machine.Memory

/-- A write leaves every other byte alone. -/
theorem lookup_put_other {a a' : Nat} (h : a' ≠ a) (b : Byte) (cs : List Host.Cell) :
    lookup (put cs a b) a' = lookup cs a' := by
  induction cs with
  | nil => by_cases hb : b = Config.unlistedByte <;> simp [put, lookup, hb, h]
  | cons p t ih =>
    obtain ⟨x, y⟩ := p
    simp only [put]
    split_ifs with h1 h2 h3 h4
    · rfl
    · simp [lookup, h]
    · subst h3; simp [lookup, h]
    · subst h3; simp [lookup, h]
    · simp [lookup, ih]

/-- What lies before a canonical list is not listed. -/
theorem lookup_below {hi lo a : Nat} {cs : List Host.Cell} (hc : cellsOk hi lo cs) (h : a < lo) :
    lookup cs a = Config.unlistedByte := by
  induction cs generalizing lo with
  | nil => rfl
  | cons p t ih =>
    obtain ⟨x, y⟩ := p
    simp only [cellsOk, Bool.and_eq_true, decide_eq_true_eq] at hc
    have hx : a ≠ x := by omega
    simpa [lookup, hx] using ih hc.2 (by omega)

/-- A write is read back. -/
theorem lookup_put_same {hi lo : Nat} {cs : List Host.Cell} (hc : cellsOk hi lo cs) (a : Nat) (b : Byte) :
    lookup (put cs a b) a = b := by
  induction cs generalizing lo with
  | nil => by_cases hb : b = Config.unlistedByte <;> simp [put, lookup, hb]
  | cons p t ih =>
    obtain ⟨x, y⟩ := p
    have hc' := hc
    simp only [cellsOk, Bool.and_eq_true, decide_eq_true_eq] at hc
    simp only [put]
    split_ifs with h1 h2 h3 h4
    · subst h2
      have hx : a ≠ x := by omega
      simpa [lookup, hx] using lookup_below hc.2 (by omega)
    · simp [lookup]
    · subst h3; subst h4
      exact lookup_below hc.2 (by omega)
    · simp [lookup]
    · simpa [lookup, h3] using ih hc.2

/-- A canonical list may be given a lower first bound. -/
theorem cellsOk_mono {hi lo lo' : Nat} {cs : List Host.Cell} (h : lo' ≤ lo) (hc : cellsOk hi lo cs) :
    cellsOk hi lo' cs := by
  cases cs with
  | nil => rfl
  | cons p t =>
    simp only [cellsOk, Bool.and_eq_true, decide_eq_true_eq] at hc ⊢
    exact ⟨⟨⟨by omega, hc.1.1.2⟩, hc.1.2⟩, hc.2⟩

/-- A write inside the image keeps the canonical form. -/
theorem cellsOk_put {hi lo a : Nat} {cs : List Host.Cell} (hc : cellsOk hi lo cs) (h1 : lo ≤ a) (h2 : a < hi)
    (b : Byte) : cellsOk hi lo (put cs a b) := by
  induction cs generalizing lo with
  | nil => by_cases hb : b = Config.unlistedByte <;> simp [put, cellsOk, hb, h1, h2]
  | cons p t ih =>
    obtain ⟨x, y⟩ := p
    have hc' := hc
    simp only [cellsOk, Bool.and_eq_true, decide_eq_true_eq] at hc
    obtain ⟨⟨⟨c1, c2⟩, c3⟩, c4⟩ := hc
    simp only [put]
    split_ifs with g1 g2 g3 g4
    · exact hc'
    · simp only [cellsOk, Bool.and_eq_true, decide_eq_true_eq]
      exact ⟨⟨⟨h1, h2⟩, g2⟩, ⟨⟨by omega, c2⟩, c3⟩, c4⟩
    · exact cellsOk_mono (by omega) c4
    · simp only [cellsOk, Bool.and_eq_true, decide_eq_true_eq]
      exact ⟨⟨⟨h1, h2⟩, g4⟩, by subst g3; exact c4⟩
    · simp only [cellsOk, Bool.and_eq_true, decide_eq_true_eq]
      exact ⟨⟨⟨c1, c2⟩, c3⟩, ih c4 (by omega)⟩

/-- Canonical lists that read alike are equal. -/
theorem cells_ext {hi lo : Nat} {cs ds : List Host.Cell} (hc : cellsOk hi lo cs) (hd : cellsOk hi lo ds)
    (h : ∀ a, lookup cs a = lookup ds a) : cs = ds := by
  induction cs generalizing lo ds with
  | nil =>
    cases ds with
    | nil => rfl
    | cons p t =>
      simp only [cellsOk, Bool.and_eq_true, decide_eq_true_eq] at hd
      have := h p.1
      simp only [lookup, ite_true] at this
      exact absurd this.symm hd.1.2
  | cons p t ih =>
    obtain ⟨x, y⟩ := p
    cases ds with
    | nil =>
      simp only [cellsOk, Bool.and_eq_true, decide_eq_true_eq] at hc
      have := h x
      simp only [lookup, ite_true] at this
      exact absurd this hc.1.2
    | cons q u =>
      obtain ⟨x', y'⟩ := q
      simp only [cellsOk, Bool.and_eq_true, decide_eq_true_eq] at hc hd
      have hx : x = x' := by
        rcases Nat.lt_trichotomy x x' with hlt | heq | hlt
        · have e := h x
          rw [show lookup ((x, y) :: t) x = y by simp [lookup],
            show lookup ((x', y') :: u) x = Config.unlistedByte by
              rw [lookup, if_neg (by omega)]; exact lookup_below hd.2 (by omega)] at e
          exact absurd e hc.1.2
        · exact heq
        · have e := h x'
          rw [show lookup ((x', y') :: u) x' = y' by simp [lookup],
            show lookup ((x, y) :: t) x' = Config.unlistedByte by
              rw [lookup, if_neg (by omega)]; exact lookup_below hc.2 (by omega)] at e
          exact absurd e.symm hd.1.2
      subst hx
      have hy : y = y' := by simpa [lookup] using h x
      subst hy
      congr 1
      refine ih hc.2 hd.2 fun a => ?_
      by_cases ha : a = x
      · subst ha
        rw [lookup_below hc.2 (by omega), lookup_below hd.2 (by omega)]
      · simpa [lookup, ha] using h a

/-! ### The same facts for an image -/

@[simp] theorem setByte_len (m : Memory) (a : Nat) (b : Byte) : (m.setByte a b).len = m.len := rfl

/-- A write leaves every other byte of the image alone (R34). -/
theorem byteAt_setByte_other {a a' : Nat} (h : a' ≠ a) (m : Memory) (b : Byte) :
    (m.setByte a b).byteAt a' = m.byteAt a' := lookup_put_other h b m.cells

/-- A write is read back (R33, R34). -/
theorem byteAt_setByte_same {m : Memory} (hm : m.wf = true) (a : Nat) (b : Byte) :
    (m.setByte a b).byteAt a = b := lookup_put_same hm a b

/-- A write inside the image keeps the canonical form. -/
theorem wf_setByte {m : Memory} (hm : m.wf = true) {a : Nat} (h : a < m.len) (b : Byte) :
    (m.setByte a b).wf = true := cellsOk_put hm (Nat.zero_le _) h b

@[simp] theorem ofCells_len (len : Nat) (cs : List Host.Cell) : (ofCells len cs).len = len := by
  induction cs with
  | nil => rfl
  | cons p t ih =>
    obtain ⟨a, b⟩ := p
    simp only [ofCells]
    split_ifs <;> simp [ih]

/-- The host's image is put in place in canonical form. -/
theorem wf_ofCells (len : Nat) (cs : List Host.Cell) : (ofCells len cs).wf = true := by
  induction cs with
  | nil => rfl
  | cons p t ih =>
    obtain ⟨a, b⟩ := p
    simp only [ofCells]
    split_ifs with hlt
    · exact wf_setByte ih (by simpa using hlt) b
    · exact ih

/-- Canonical images of one length that read alike are equal data. -/
theorem ext_of_byteAt {m n : Memory} (hm : m.wf = true) (hn : n.wf = true) (hl : m.len = n.len)
    (h : ∀ a, m.byteAt a = n.byteAt a) : m = n := by
  cases m; cases n
  simp only at hl
  subst hl
  exact congrArg _ (cells_ext hm hn h)

/-- Writing back the byte that stands there changes nothing (R77). -/
theorem setByte_self {m : Memory} (hm : m.wf = true) {a : Nat} (h : a < m.len) : m.setByte a (m.byteAt a) = m := by
  refine ext_of_byteAt (wf_setByte hm h _) hm rfl fun a' => ?_
  by_cases e : a' = a
  · subst e; exact byteAt_setByte_same hm _ _
  · exact byteAt_setByte_other e m _

end Sys2Proof.Machine.Memory
end

