-- ==== Sys2Proof/Laws/State.lean ====
section
/-! SUPPORT. One lemma for each field and each record update of the machine. -/

namespace Sys2Proof.Machine.State

variable (s : State)

/-! ### R28: one event recorded. -/

@[simp] theorem record_params (e : Event) : (s.record e).params = s.params := rfl
@[simp] theorem record_mode (e : Event) : (s.record e).mode = s.mode := rfl
@[simp] theorem record_runState (e : Event) : (s.record e).runState = s.runState := rfl
@[simp] theorem record_cause (e : Event) : (s.record e).cause = s.cause := rfl
@[simp] theorem record_fop (e : Event) : (s.record e).fop = s.fop := rfl
@[simp] theorem record_base (e : Event) : (s.record e).base = s.base := rfl
@[simp] theorem record_cidx (e : Event) : (s.record e).cidx = s.cidx := rfl
@[simp] theorem record_foff (e : Event) : (s.record e).foff = s.foff := rfl
@[simp] theorem record_d (e : Event) : (s.record e).d = s.d := rfl
@[simp] theorem record_r (e : Event) : (s.record e).r = s.r := rfl
@[simp] theorem record_len (e : Event) : (s.record e).len = s.len := rfl
@[simp] theorem record_bad (e : Event) : (s.record e).bad = s.bad := rfl
@[simp] theorem record_image (e : Event) : (s.record e).image = s.image := rfl
@[simp] theorem record_cq (e : Event) : (s.record e).cq = s.cq := rfl
@[simp] theorem record_executing (e : Event) : (s.record e).executing = s.executing := rfl
@[simp] theorem record_pending (e : Event) : (s.record e).pending = s.pending := rfl
@[simp] theorem record_imgAns (e : Event) : (s.record e).imgAns = s.imgAns := rfl
@[simp] theorem record_rptAns (e : Event) : (s.record e).rptAns = s.rptAns := rfl
@[simp] theorem record_pace (e : Event) : (s.record e).pace = s.pace := rfl
@[simp] theorem record_host (e : Event) : (s.record e).host = s.host := rfl
@[simp] theorem record_readLog (e : Event) : (s.record e).readLog = s.readLog := rfl
@[simp] theorem record_trace (e : Event) : (s.record e).trace = s.trace ++ [e] := rfl
@[simp] theorem record_fresh (e : Event) : (s.record e).fresh = s.fresh := rfl

/-! ### R117: fault entry. -/

@[simp] theorem raise_params (c : Cause) : (s.raise c).params = s.params := rfl
@[simp] theorem raise_mode (c : Cause) : (s.raise c).mode = s.mode := rfl
@[simp] theorem raise_runState (c : Cause) : (s.raise c).runState = .fault := rfl
@[simp] theorem raise_cause (c : Cause) : (s.raise c).cause = c := rfl
@[simp] theorem raise_fop (c : Cause) : (s.raise c).fop = s.fop := rfl
@[simp] theorem raise_base (c : Cause) : (s.raise c).base = s.base := rfl
@[simp] theorem raise_cidx (c : Cause) : (s.raise c).cidx = s.cidx := rfl
@[simp] theorem raise_foff (c : Cause) : (s.raise c).foff = s.foff := rfl
@[simp] theorem raise_d (c : Cause) : (s.raise c).d = s.d := rfl
@[simp] theorem raise_r (c : Cause) : (s.raise c).r = s.r := rfl
@[simp] theorem raise_len (c : Cause) : (s.raise c).len = s.len := rfl
@[simp] theorem raise_bad (c : Cause) : (s.raise c).bad = s.bad := rfl
@[simp] theorem raise_image (c : Cause) : (s.raise c).image = s.image := rfl
@[simp] theorem raise_cq (c : Cause) : (s.raise c).cq = s.cq := rfl
@[simp] theorem raise_executing (c : Cause) : (s.raise c).executing = none := rfl
@[simp] theorem raise_pending (c : Cause) : (s.raise c).pending = none := rfl
@[simp] theorem raise_imgAns (c : Cause) : (s.raise c).imgAns = s.imgAns := rfl
@[simp] theorem raise_rptAns (c : Cause) : (s.raise c).rptAns = s.rptAns := rfl
@[simp] theorem raise_pace (c : Cause) : (s.raise c).pace = s.pace := rfl
@[simp] theorem raise_host (c : Cause) : (s.raise c).host = s.host := rfl
@[simp] theorem raise_readLog (c : Cause) : (s.raise c).readLog = s.readLog := rfl
@[simp] theorem raise_trace (c : Cause) : (s.raise c).trace = s.trace ++ [.fault c s.cidx] := rfl
@[simp] theorem raise_fresh (c : Cause) : (s.raise c).fresh = s.fresh := rfl

/-! ### R113: the entry of ImageIOError. -/

@[simp] theorem raiseIO_params (off : Nat) (op : FaultOp) : (s.raiseIO off op).params = s.params := rfl
@[simp] theorem raiseIO_mode (off : Nat) (op : FaultOp) : (s.raiseIO off op).mode = s.mode := rfl
@[simp] theorem raiseIO_runState (off : Nat) (op : FaultOp) : (s.raiseIO off op).runState = .fault := rfl
@[simp] theorem raiseIO_cause (off : Nat) (op : FaultOp) : (s.raiseIO off op).cause = .imageIOError := rfl
@[simp] theorem raiseIO_fop (off : Nat) (op : FaultOp) : (s.raiseIO off op).fop = op := rfl
@[simp] theorem raiseIO_base (off : Nat) (op : FaultOp) : (s.raiseIO off op).base = s.base := rfl
@[simp] theorem raiseIO_cidx (off : Nat) (op : FaultOp) : (s.raiseIO off op).cidx = s.cidx := rfl
@[simp] theorem raiseIO_foff (off : Nat) (op : FaultOp) : (s.raiseIO off op).foff = off := rfl
@[simp] theorem raiseIO_d (off : Nat) (op : FaultOp) : (s.raiseIO off op).d = s.d := rfl
@[simp] theorem raiseIO_r (off : Nat) (op : FaultOp) : (s.raiseIO off op).r = s.r := rfl
@[simp] theorem raiseIO_len (off : Nat) (op : FaultOp) : (s.raiseIO off op).len = s.len := rfl
@[simp] theorem raiseIO_bad (off : Nat) (op : FaultOp) : (s.raiseIO off op).bad = s.bad := rfl
@[simp] theorem raiseIO_image (off : Nat) (op : FaultOp) : (s.raiseIO off op).image = s.image := rfl
@[simp] theorem raiseIO_cq (off : Nat) (op : FaultOp) : (s.raiseIO off op).cq = s.cq := rfl
@[simp] theorem raiseIO_executing (off : Nat) (op : FaultOp) : (s.raiseIO off op).executing = none := rfl
@[simp] theorem raiseIO_pending (off : Nat) (op : FaultOp) : (s.raiseIO off op).pending = none := rfl
@[simp] theorem raiseIO_imgAns (off : Nat) (op : FaultOp) : (s.raiseIO off op).imgAns = s.imgAns := rfl
@[simp] theorem raiseIO_rptAns (off : Nat) (op : FaultOp) : (s.raiseIO off op).rptAns = s.rptAns := rfl
@[simp] theorem raiseIO_pace (off : Nat) (op : FaultOp) : (s.raiseIO off op).pace = s.pace := rfl
@[simp] theorem raiseIO_host (off : Nat) (op : FaultOp) : (s.raiseIO off op).host = s.host := rfl
@[simp] theorem raiseIO_readLog (off : Nat) (op : FaultOp) : (s.raiseIO off op).readLog = s.readLog := rfl
@[simp] theorem raiseIO_trace (off : Nat) (op : FaultOp) : (s.raiseIO off op).trace = s.trace ++ [.fault .imageIOError s.cidx] := rfl
@[simp] theorem raiseIO_fresh (off : Nat) (op : FaultOp) : (s.raiseIO off op).fresh = s.fresh := rfl

/-! ### R70: the nibble files of GG6. -/

@[simp] theorem latchGg6_params (ns : List Nibble) : (s.latchGg6 ns).params = s.params := rfl
@[simp] theorem latchGg6_mode (ns : List Nibble) : (s.latchGg6 ns).mode = s.mode := rfl
@[simp] theorem latchGg6_runState (ns : List Nibble) : (s.latchGg6 ns).runState = s.runState := rfl
@[simp] theorem latchGg6_cause (ns : List Nibble) : (s.latchGg6 ns).cause = s.cause := rfl
@[simp] theorem latchGg6_fop (ns : List Nibble) : (s.latchGg6 ns).fop = s.fop := rfl
@[simp] theorem latchGg6_base (ns : List Nibble) : (s.latchGg6 ns).base = s.base := rfl
@[simp] theorem latchGg6_cidx (ns : List Nibble) : (s.latchGg6 ns).cidx = s.cidx := rfl
@[simp] theorem latchGg6_foff (ns : List Nibble) : (s.latchGg6 ns).foff = s.foff := rfl
@[simp] theorem latchGg6_d (ns : List Nibble) : (s.latchGg6 ns).d = latch6 ns s.d := rfl
@[simp] theorem latchGg6_r (ns : List Nibble) : (s.latchGg6 ns).r = rearrange6 (latch6 ns s.d) s.r := rfl
@[simp] theorem latchGg6_len (ns : List Nibble) : (s.latchGg6 ns).len = s.len := rfl
@[simp] theorem latchGg6_bad (ns : List Nibble) : (s.latchGg6 ns).bad = s.bad := rfl
@[simp] theorem latchGg6_image (ns : List Nibble) : (s.latchGg6 ns).image = s.image := rfl
@[simp] theorem latchGg6_cq (ns : List Nibble) : (s.latchGg6 ns).cq = s.cq := rfl
@[simp] theorem latchGg6_executing (ns : List Nibble) : (s.latchGg6 ns).executing = s.executing := rfl
@[simp] theorem latchGg6_pending (ns : List Nibble) : (s.latchGg6 ns).pending = s.pending := rfl
@[simp] theorem latchGg6_imgAns (ns : List Nibble) : (s.latchGg6 ns).imgAns = s.imgAns := rfl
@[simp] theorem latchGg6_rptAns (ns : List Nibble) : (s.latchGg6 ns).rptAns = s.rptAns := rfl
@[simp] theorem latchGg6_pace (ns : List Nibble) : (s.latchGg6 ns).pace = s.pace := rfl
@[simp] theorem latchGg6_host (ns : List Nibble) : (s.latchGg6 ns).host = s.host := rfl
@[simp] theorem latchGg6_readLog (ns : List Nibble) : (s.latchGg6 ns).readLog = s.readLog := rfl
@[simp] theorem latchGg6_trace (ns : List Nibble) : (s.latchGg6 ns).trace = s.trace := rfl
@[simp] theorem latchGg6_fresh (ns : List Nibble) : (s.latchGg6 ns).fresh = s.fresh := rfl

/-! ### R75: the nibble files of GG8. -/

@[simp] theorem latchGg8_params (ns : List Nibble) : (s.latchGg8 ns).params = s.params := rfl
@[simp] theorem latchGg8_mode (ns : List Nibble) : (s.latchGg8 ns).mode = s.mode := rfl
@[simp] theorem latchGg8_runState (ns : List Nibble) : (s.latchGg8 ns).runState = s.runState := rfl
@[simp] theorem latchGg8_cause (ns : List Nibble) : (s.latchGg8 ns).cause = s.cause := rfl
@[simp] theorem latchGg8_fop (ns : List Nibble) : (s.latchGg8 ns).fop = s.fop := rfl
@[simp] theorem latchGg8_base (ns : List Nibble) : (s.latchGg8 ns).base = s.base := rfl
@[simp] theorem latchGg8_cidx (ns : List Nibble) : (s.latchGg8 ns).cidx = s.cidx := rfl
@[simp] theorem latchGg8_foff (ns : List Nibble) : (s.latchGg8 ns).foff = s.foff := rfl
@[simp] theorem latchGg8_d (ns : List Nibble) : (s.latchGg8 ns).d = latch8 ns := rfl
@[simp] theorem latchGg8_r (ns : List Nibble) : (s.latchGg8 ns).r = rearrange8 (latch8 ns) := rfl
@[simp] theorem latchGg8_len (ns : List Nibble) : (s.latchGg8 ns).len = s.len := rfl
@[simp] theorem latchGg8_bad (ns : List Nibble) : (s.latchGg8 ns).bad = s.bad := rfl
@[simp] theorem latchGg8_image (ns : List Nibble) : (s.latchGg8 ns).image = s.image := rfl
@[simp] theorem latchGg8_cq (ns : List Nibble) : (s.latchGg8 ns).cq = s.cq := rfl
@[simp] theorem latchGg8_executing (ns : List Nibble) : (s.latchGg8 ns).executing = s.executing := rfl
@[simp] theorem latchGg8_pending (ns : List Nibble) : (s.latchGg8 ns).pending = s.pending := rfl
@[simp] theorem latchGg8_imgAns (ns : List Nibble) : (s.latchGg8 ns).imgAns = s.imgAns := rfl
@[simp] theorem latchGg8_rptAns (ns : List Nibble) : (s.latchGg8 ns).rptAns = s.rptAns := rfl
@[simp] theorem latchGg8_pace (ns : List Nibble) : (s.latchGg8 ns).pace = s.pace := rfl
@[simp] theorem latchGg8_host (ns : List Nibble) : (s.latchGg8 ns).host = s.host := rfl
@[simp] theorem latchGg8_readLog (ns : List Nibble) : (s.latchGg8 ns).readLog = s.readLog := rfl
@[simp] theorem latchGg8_trace (ns : List Nibble) : (s.latchGg8 ns).trace = s.trace := rfl
@[simp] theorem latchGg8_fresh (ns : List Nibble) : (s.latchGg8 ns).fresh = s.fresh := rfl

/-! ### R89: a CHAR token. -/

@[simp] theorem latchChar_params (c : Nat) : (s.latchChar c).params = s.params := rfl
@[simp] theorem latchChar_mode (c : Nat) : (s.latchChar c).mode = s.mode := rfl
@[simp] theorem latchChar_runState (c : Nat) : (s.latchChar c).runState = s.runState := rfl
@[simp] theorem latchChar_cause (c : Nat) : (s.latchChar c).cause = s.cause := rfl
@[simp] theorem latchChar_fop (c : Nat) : (s.latchChar c).fop = s.fop := rfl
@[simp] theorem latchChar_base (c : Nat) : (s.latchChar c).base = s.base := rfl
@[simp] theorem latchChar_cidx (c : Nat) : (s.latchChar c).cidx = s.cidx := rfl
@[simp] theorem latchChar_foff (c : Nat) : (s.latchChar c).foff = s.foff := rfl
@[simp] theorem latchChar_d (c : Nat) : (s.latchChar c).d = nextNibbles s.d s.len c := rfl
@[simp] theorem latchChar_r (c : Nat) : (s.latchChar c).r = s.r := rfl
@[simp] theorem latchChar_len (c : Nat) : (s.latchChar c).len = nextLen s.len := rfl
@[simp] theorem latchChar_bad (c : Nat) : (s.latchChar c).bad = nextBad s.bad c := rfl
@[simp] theorem latchChar_image (c : Nat) : (s.latchChar c).image = s.image := rfl
@[simp] theorem latchChar_cq (c : Nat) : (s.latchChar c).cq = s.cq := rfl
@[simp] theorem latchChar_executing (c : Nat) : (s.latchChar c).executing = s.executing := rfl
@[simp] theorem latchChar_pending (c : Nat) : (s.latchChar c).pending = s.pending := rfl
@[simp] theorem latchChar_imgAns (c : Nat) : (s.latchChar c).imgAns = s.imgAns := rfl
@[simp] theorem latchChar_rptAns (c : Nat) : (s.latchChar c).rptAns = s.rptAns := rfl
@[simp] theorem latchChar_pace (c : Nat) : (s.latchChar c).pace = s.pace := rfl
@[simp] theorem latchChar_host (c : Nat) : (s.latchChar c).host = s.host := rfl
@[simp] theorem latchChar_readLog (c : Nat) : (s.latchChar c).readLog = s.readLog := rfl
@[simp] theorem latchChar_trace (c : Nat) : (s.latchChar c).trace = s.trace := rfl
@[simp] theorem latchChar_fresh (c : Nat) : (s.latchChar c).fresh = s.fresh := rfl

/-! ### R90: a terminator accepted. -/

@[simp] theorem acceptTerminator_params (t : Terminator) : (s.acceptTerminator t).params = s.params := rfl
@[simp] theorem acceptTerminator_mode (t : Terminator) : (s.acceptTerminator t).mode = s.mode := rfl
@[simp] theorem acceptTerminator_runState (t : Terminator) : (s.acceptTerminator t).runState = s.runState := rfl
@[simp] theorem acceptTerminator_cause (t : Terminator) : (s.acceptTerminator t).cause = s.cause := rfl
@[simp] theorem acceptTerminator_fop (t : Terminator) : (s.acceptTerminator t).fop = s.fop := rfl
@[simp] theorem acceptTerminator_base (t : Terminator) : (s.acceptTerminator t).base = s.base := rfl
@[simp] theorem acceptTerminator_cidx (t : Terminator) : (s.acceptTerminator t).cidx = s.cidx := rfl
@[simp] theorem acceptTerminator_foff (t : Terminator) : (s.acceptTerminator t).foff = s.foff := rfl
@[simp] theorem acceptTerminator_d (t : Terminator) : (s.acceptTerminator t).d = s.d := rfl
@[simp] theorem acceptTerminator_r (t : Terminator) : (s.acceptTerminator t).r = s.r := rfl
@[simp] theorem acceptTerminator_len (t : Terminator) : (s.acceptTerminator t).len = s.len := rfl
@[simp] theorem acceptTerminator_bad (t : Terminator) : (s.acceptTerminator t).bad = s.bad := rfl
@[simp] theorem acceptTerminator_image (t : Terminator) : (s.acceptTerminator t).image = s.image := rfl
@[simp] theorem acceptTerminator_cq (t : Terminator) : (s.acceptTerminator t).cq = s.cq := rfl
@[simp] theorem acceptTerminator_executing (t : Terminator) : (s.acceptTerminator t).executing = some t := rfl
@[simp] theorem acceptTerminator_pending (t : Terminator) : (s.acceptTerminator t).pending = s.pending := rfl
@[simp] theorem acceptTerminator_imgAns (t : Terminator) : (s.acceptTerminator t).imgAns = s.imgAns := rfl
@[simp] theorem acceptTerminator_rptAns (t : Terminator) : (s.acceptTerminator t).rptAns = s.rptAns := rfl
@[simp] theorem acceptTerminator_pace (t : Terminator) : (s.acceptTerminator t).pace = s.pace := rfl
@[simp] theorem acceptTerminator_host (t : Terminator) : (s.acceptTerminator t).host = s.host := rfl
@[simp] theorem acceptTerminator_readLog (t : Terminator) : (s.acceptTerminator t).readLog = s.readLog := rfl
@[simp] theorem acceptTerminator_trace (t : Terminator) : (s.acceptTerminator t).trace = s.trace := rfl
@[simp] theorem acceptTerminator_fresh (t : Terminator) : (s.acceptTerminator t).fresh = s.fresh := rfl

/-! ### R86: START without a decoder. -/

@[simp] theorem startRejected_params : s.startRejected.params = s.params := rfl
@[simp] theorem startRejected_mode : s.startRejected.mode = s.mode := rfl
@[simp] theorem startRejected_runState : s.startRejected.runState = .fault := rfl
@[simp] theorem startRejected_cause : s.startRejected.cause = .platformNotImplemented := rfl
@[simp] theorem startRejected_fop : s.startRejected.fop = s.fop := rfl
@[simp] theorem startRejected_base : s.startRejected.base = s.params.headerSize := rfl
@[simp] theorem startRejected_cidx : s.startRejected.cidx = 0 := rfl
@[simp] theorem startRejected_foff : s.startRejected.foff = s.foff := rfl
@[simp] theorem startRejected_d : s.startRejected.d = s.d := rfl
@[simp] theorem startRejected_r : s.startRejected.r = s.r := rfl
@[simp] theorem startRejected_len : s.startRejected.len = s.len := rfl
@[simp] theorem startRejected_bad : s.startRejected.bad = s.bad := rfl
@[simp] theorem startRejected_image : s.startRejected.image = s.image := rfl
@[simp] theorem startRejected_cq : s.startRejected.cq = s.cq := rfl
@[simp] theorem startRejected_executing : s.startRejected.executing = none := rfl
@[simp] theorem startRejected_pending : s.startRejected.pending = none := rfl
@[simp] theorem startRejected_imgAns : s.startRejected.imgAns = s.imgAns := rfl
@[simp] theorem startRejected_rptAns : s.startRejected.rptAns = s.rptAns := rfl
@[simp] theorem startRejected_pace : s.startRejected.pace = s.pace := rfl
@[simp] theorem startRejected_host : s.startRejected.host = s.host := rfl
@[simp] theorem startRejected_readLog : s.startRejected.readLog = s.readLog := rfl
@[simp] theorem startRejected_trace : s.startRejected.trace = s.trace ++ [.start s.mode] ++ [.fault .platformNotImplemented 0] := rfl
@[simp] theorem startRejected_fresh : s.startRejected.fresh = s.fresh := rfl

/-! ### R88: the seeding. -/

@[simp] theorem startAccepted_params : s.startAccepted.params = s.params := rfl
@[simp] theorem startAccepted_mode : s.startAccepted.mode = s.mode := rfl
@[simp] theorem startAccepted_runState : s.startAccepted.runState = .run := rfl
@[simp] theorem startAccepted_cause : s.startAccepted.cause = .none := rfl
@[simp] theorem startAccepted_fop : s.startAccepted.fop = s.fop := rfl
@[simp] theorem startAccepted_base : s.startAccepted.base = s.params.headerSize := rfl
@[simp] theorem startAccepted_cidx : s.startAccepted.cidx = 0 := rfl
@[simp] theorem startAccepted_foff : s.startAccepted.foff = s.foff := rfl
@[simp] theorem startAccepted_d : s.startAccepted.d = s.d := rfl
@[simp] theorem startAccepted_r : s.startAccepted.r = s.r := rfl
@[simp] theorem startAccepted_len : s.startAccepted.len = 0 := rfl
@[simp] theorem startAccepted_bad : s.startAccepted.bad = false := rfl
@[simp] theorem startAccepted_image : s.startAccepted.image = s.image := rfl
@[simp] theorem startAccepted_cq : s.startAccepted.cq = s.cq := rfl
@[simp] theorem startAccepted_executing : s.startAccepted.executing = s.executing := rfl
@[simp] theorem startAccepted_pending : s.startAccepted.pending = s.pending := rfl
@[simp] theorem startAccepted_imgAns : s.startAccepted.imgAns = s.imgAns := rfl
@[simp] theorem startAccepted_rptAns : s.startAccepted.rptAns = s.rptAns := rfl
@[simp] theorem startAccepted_pace : s.startAccepted.pace = s.pace := rfl
@[simp] theorem startAccepted_host : s.startAccepted.host = s.host := rfl
@[simp] theorem startAccepted_readLog : s.startAccepted.readLog = s.readLog := rfl
@[simp] theorem startAccepted_trace : s.startAccepted.trace = s.trace ++ [.start s.mode] := rfl
@[simp] theorem startAccepted_fresh : s.startAccepted.fresh = s.fresh := rfl

/-! ### R29: RESET. -/

@[simp] theorem applyReset_params : s.applyReset.params = s.params := rfl
@[simp] theorem applyReset_mode : s.applyReset.mode = 2 ^ s.params.modeW - 1 := rfl
@[simp] theorem applyReset_runState : s.applyReset.runState = .idle := rfl
@[simp] theorem applyReset_cause : s.applyReset.cause = .none := rfl
@[simp] theorem applyReset_fop : s.applyReset.fop = .read := rfl
@[simp] theorem applyReset_base : s.applyReset.base = s.params.headerSize := rfl
@[simp] theorem applyReset_cidx : s.applyReset.cidx = 0 := rfl
@[simp] theorem applyReset_foff : s.applyReset.foff = 0 := rfl
@[simp] theorem applyReset_d : s.applyReset.d = State.reset.d := rfl
@[simp] theorem applyReset_r : s.applyReset.r = State.reset.r := rfl
@[simp] theorem applyReset_len : s.applyReset.len = 0 := rfl
@[simp] theorem applyReset_bad : s.applyReset.bad = false := rfl
@[simp] theorem applyReset_image : s.applyReset.image = s.imageAfterReset := rfl
@[simp] theorem applyReset_cq : s.applyReset.cq = [] := rfl
@[simp] theorem applyReset_executing : s.applyReset.executing = none := rfl
@[simp] theorem applyReset_pending : s.applyReset.pending = none := rfl
@[simp] theorem applyReset_imgAns : s.applyReset.imgAns = s.imgAns := rfl
@[simp] theorem applyReset_rptAns : s.applyReset.rptAns = s.rptAns := rfl
@[simp] theorem applyReset_pace : s.applyReset.pace = s.pace := rfl
@[simp] theorem applyReset_host : s.applyReset.host = s.host := rfl
@[simp] theorem applyReset_readLog : s.applyReset.readLog = s.readLog := rfl
@[simp] theorem applyReset_trace : s.applyReset.trace = s.trace := rfl
@[simp] theorem applyReset_fresh : s.applyReset.fresh = s.fresh + 1 := rfl

end Sys2Proof.Machine.State
end

