-- ==== Sys2Proof/Laws/Ops.lean ====
section
/-! SUPPORT. What the shared operations of a code can do, said once each: the report with its advance, the
write, the read, the look at what is outstanding. -/

namespace Sys2Proof.Machine

/-- What the access phase of a code at offset `off` can change (R70, R75, R96, R117). -/
structure CodeFrame (off : Nat) (s t : State) : Prop where
  params : t.params = s.params
  mode : t.mode = s.mode
  d : t.d = s.d
  r : t.r = s.r
  len : t.len = s.len
  bad : t.bad = s.bad
  cq : t.cq = s.cq
  host : t.host = s.host
  readLog : t.readLog = s.readLog
  /-- The trace only grows at its end (R28). -/
  trace : s.trace <+: t.trace
  image_len : t.image.len = s.image.len
  image_other : ∀ a, a ≠ off → t.image.byteAt a = s.image.byteAt a
  image_wf : s.image.wf = true → t.image.wf = true
  /-- The status is untouched, or a fault has been entered. -/
  status : (t.runState = s.runState ∧ t.cause = s.cause ∧ t.fop = s.fop ∧ t.foff = s.foff ∧
      t.executing = s.executing) ∨
    (t.runState = .fault ∧ t.cause ≠ .none ∧ t.executing = none ∧ t.pending = none ∧
      ((t.cause = .imageIOError ∧ t.foff = off) ∨ (t.fop = s.fop ∧ t.foff = s.foff)))
  /-- `BASE` and `CIDX` stand, or have been advanced together, and fit. -/
  index : (t.base = s.base ∧ t.cidx = s.cidx) ∨
    (t.base = s.base + s.params.bankSize ∧ t.cidx = s.cidx + 1 ∧ t.base < 2 ^ s.params.offw ∧
      t.cidx < 2 ^ s.params.cidxw ∧ t.pending = none)
  /-- What is outstanding afterwards belongs to this offset, and nothing has been advanced or faulted. -/
  outstanding : ∀ p, t.pending = some p → (∀ o, p.off? = some o → o = off) ∧ t.base = s.base ∧ t.cidx = s.cidx

theorem State.advanceFits_iff (s : State) : s.advanceFits = true ↔
    s.base + s.params.bankSize < 2 ^ s.params.offw ∧ s.cidx + 1 < 2 ^ s.params.cidxw := by
  simp [State.advanceFits]

/-- R96: the advance either fits and moves both registers, or enters `OffsetOverflow`. -/
theorem State.advance_cases (s : State) :
    (s.advanceFits = true ∧ s.advance = { s with
        base := s.base + s.params.bankSize
        cidx := s.cidx + 1 }) ∨
    (s.advanceFits = false ∧ s.advance = s.raise .offsetOverflow) := by
  unfold State.advance
  cases h : s.advanceFits <;> simp

/-- What the steps inside a code change before the code ends or faults: answers used up, events, the byte at
the offset, what is outstanding, free values used. -/
structure CodeQuiet (off : Nat) (s t : State) : Prop where
  params : t.params = s.params
  mode : t.mode = s.mode
  runState : t.runState = s.runState
  cause : t.cause = s.cause
  fop : t.fop = s.fop
  base : t.base = s.base
  cidx : t.cidx = s.cidx
  foff : t.foff = s.foff
  d : t.d = s.d
  r : t.r = s.r
  len : t.len = s.len
  bad : t.bad = s.bad
  cq : t.cq = s.cq
  executing : t.executing = s.executing
  host : t.host = s.host
  readLog : t.readLog = s.readLog
  /-- The trace only grows at its end (R28). -/
  trace : s.trace <+: t.trace
  image_len : t.image.len = s.image.len
  image_other : ∀ a, a ≠ off → t.image.byteAt a = s.image.byteAt a
  image_wf : s.image.wf = true → t.image.wf = true

/-- A frame may be extended backwards over quiet steps. -/
theorem CodeFrame.after {off : Nat} {s u t : State} (q : CodeQuiet off s u) (f : CodeFrame off u t) :
    CodeFrame off s t where
  params := f.params.trans q.params
  mode := f.mode.trans q.mode
  d := f.d.trans q.d
  r := f.r.trans q.r
  len := f.len.trans q.len
  bad := f.bad.trans q.bad
  cq := f.cq.trans q.cq
  host := f.host.trans q.host
  readLog := f.readLog.trans q.readLog
  trace := q.trace.trans f.trace
  image_len := f.image_len.trans q.image_len
  image_other a h := (f.image_other a h).trans (q.image_other a h)
  image_wf h := f.image_wf (q.image_wf h)
  status := by
    have h := f.status
    rwa [q.runState, q.cause, q.fop, q.foff, q.executing] at h
  index := by
    have h := f.index
    rwa [q.base, q.cidx, q.params] at h
  outstanding p hp := by
    have h := f.outstanding p hp
    rwa [q.base, q.cidx] at h

/-- Where something stays outstanding, the frame holds. -/
theorem CodeFrame.ofWait {off : Nat} {s t : State} (q : CodeQuiet off s t) {p : Pending}
    (hp : t.pending = some p) (ho : ∀ o, p.off? = some o → o = off) : CodeFrame off s t where
  params := q.params
  mode := q.mode
  d := q.d
  r := q.r
  len := q.len
  bad := q.bad
  cq := q.cq
  host := q.host
  readLog := q.readLog
  trace := q.trace
  image_len := q.image_len
  image_other := q.image_other
  image_wf := q.image_wf
  status := .inl ⟨q.runState, q.cause, q.fop, q.foff, q.executing⟩
  index := .inl ⟨q.base, q.cidx⟩
  outstanding p' h := by
    rw [hp, Option.some.injEq] at h
    subst h
    exact ⟨ho, q.base, q.cidx⟩

theorem State.raise_frame (s : State) (off : Nat) {c : Cause} (hc : c ≠ .none) :
    CodeFrame off s (s.raise c) := by
  constructor <;> simp [hc]

theorem State.raiseIO_frame (s : State) (off : Nat) (op : FaultOp) : CodeFrame off s (s.raiseIO off op) := by
  constructor <;> simp

/-- R96: the advance moves both registers, or faults. -/
theorem State.advance_frame (s : State) (off : Nat) (h : s.pending = none) : CodeFrame off s s.advance := by
  rcases s.advance_cases with ⟨hf, he⟩ | ⟨-, he⟩ <;> rw [he]
  · constructor <;> simp [h]
    exact s.advanceFits_iff.1 hf
  · exact s.raise_frame off (by simp)

/-- R92, R96: the advance of a code whose record has been taken, at once or still to come. -/
theorem State.advanceDue_frame (s : State) (off : Nat) : CodeFrame off s s.advanceDue := by
  unfold State.advanceDue
  cases s.paceAnswer with
  | rest => exact CodeFrame.ofWait (by constructor <;> simp) rfl (by simp [Pending.off?])
  | go =>
    exact CodeFrame.after (u := { s with pace := s.pace.tail, pending := none })
      (by constructor <;> simp) (State.advance_frame _ off rfl)

/-- R26, R96: the report with its advance. -/
theorem State.sendReport_frame (s : State) (off : Nat) (w : Byte) : CodeFrame off s (s.sendReport off w) := by
  unfold State.sendReport
  cases s.rptAnswer with
  | wait => exact CodeFrame.ofWait (by constructor <;> simp) rfl (by simp [Pending.off?])
  | take =>
    exact CodeFrame.after (u := { s with rptAns := s.rptAns.tail }.record (.report off w))
      (by constructor <;> simp) (State.advanceDue_frame _ off)

/-- R113: the fault entry of a failed write, at once or still to come. -/
theorem State.writeFaultDue_frame (s : State) (off : Nat) : CodeFrame off s (s.writeFaultDue off) := by
  unfold State.writeFaultDue
  cases s.paceAnswer with
  | rest => exact CodeFrame.ofWait (by constructor <;> simp) rfl (by simp [Pending.off?])
  | go =>
    exact CodeFrame.after (u := { s with pace := s.pace.tail }) (by constructor <;> simp)
      (State.raiseIO_frame _ off .write)

/-- R34: the failed write. -/
theorem State.writeFailed_frame (s : State) (off : Nat) : CodeFrame off s (s.writeFailed off) := by
  unfold State.writeFailed
  split_ifs with h
  · exact CodeFrame.after (u := { s with
      image := s.image.setByte off (Config.failedWriteByte s.fresh), fresh := s.fresh + 1 })
      (by
        constructor <;> simp
        · intro a ha; exact Memory.byteAt_setByte_other ha _ _
        · intro hw; exact Memory.wf_setByte hw h _)
      (State.writeFaultDue_frame _ off)
  · exact State.writeFaultDue_frame _ off

/-- R34, R92: the write that succeeds, with the report and the advance. -/
theorem State.writeDone_frame (s : State) (off : Nat) (w : Byte) (h : off < s.image.len) :
    CodeFrame off s (s.writeDone off w) :=
  CodeFrame.after (u := { s with image := s.image.setByte off w }.record (.imgWrite off w))
    (by
      constructor <;> simp
      · intro a ha; exact Memory.byteAt_setByte_other ha _ _
      · intro hw; exact Memory.wf_setByte hw h _)
    (State.sendReport_frame _ off w)

/-- Using up an answer of the image device is quiet. -/
theorem CodeQuiet.popImg (s : State) (off : Nat) : CodeQuiet off s { s with imgAns := s.imgAns.tail } := by
  constructor <;> simp

/-- R34: everything `MemWrite` can do. -/
theorem State.memWrite_frame (s : State) (off : Nat) (w : Byte) : CodeFrame off s (s.memWrite off w) := by
  unfold State.memWrite
  cases s.imgAnswer with
  | wait => exact CodeFrame.ofWait (by constructor <;> simp) rfl (by simp [Pending.off?])
  | err => exact .after (.popImg s off) (State.writeFailed_frame _ off)
  | ok =>
    simp only []
    split_ifs with h
    · exact .after (.popImg s off) (State.writeDone_frame _ off w h)
    · exact .after (.popImg s off) (State.writeFailed_frame _ off)

/-- R33, R75: everything the read of a `GG8` code and what follows it can do. -/
theorem State.memReadThenWrite_frame (s : State) (off : Nat) (v c : Byte) :
    CodeFrame off s (s.memReadThenWrite off v c) := by
  unfold State.memReadThenWrite
  cases s.imgAnswer with
  | wait => exact CodeFrame.ofWait (by constructor <;> simp) rfl (by simp [Pending.off?])
  | err => exact .after (.popImg s off) (State.raiseIO_frame _ off .read)
  | ok =>
    simp only []
    split_ifs with h
    · exact .after (u := { s with imgAns := s.imgAns.tail }.record (.imgRead off (s.image.byteAt off)))
        (by constructor <;> simp) (State.memWrite_frame _ off _)
    · exact .after (.popImg s off) (State.raiseIO_frame _ off .read)

/-- R27: everything the block can do where its code stands; an internal step stands at no offset. -/
theorem State.resume_frame (s : State) (p : Pending) {off : Nat} (ho : ∀ o, p.off? = some o → o = off) :
    CodeFrame off s (s.resume p) := by
  cases p with
  | read o v c => obtain rfl := ho o rfl; exact s.memReadThenWrite_frame o v c
  | write o w => obtain rfl := ho o rfl; exact s.memWrite_frame o w
  | report o w => obtain rfl := ho o rfl; exact s.sendReport_frame o w
  | failing o => obtain rfl := ho o rfl; exact s.writeFaultDue_frame o
  | advance => exact s.advanceDue_frame off
  | ending => constructor <;> simp [State.resume]

/-- The same without a word about where: the offset is what stands outstanding, if anything does. -/
theorem State.exists_resume_frame (s : State) (p : Pending) :
    ∃ off, (∀ o, p.off? = some o → o = off) ∧ CodeFrame off s (s.resume p) := by
  have ho : ∀ o, p.off? = some o → o = p.off?.getD 0 := by
    intro o h
    rw [h, Option.getD_some]
  exact ⟨_, ho, s.resume_frame p ho⟩

/-! ### The same operations as equations, one for each answer of the environment -/

/-- R96: the advance that fits. -/
theorem State.advance_of_fits {s : State} (hb : s.base + s.params.bankSize < 2 ^ s.params.offw)
    (hc : s.cidx + 1 < 2 ^ s.params.cidxw) : s.advance = { s with
      base := s.base + s.params.bankSize
      cidx := s.cidx + 1 } := by
  unfold State.advance
  rw [if_pos (s.advanceFits_iff.2 ⟨hb, hc⟩)]

/-- R96: the advance that does not fit. -/
theorem State.advance_of_not_fits {s : State}
    (h : 2 ^ s.params.offw ≤ s.base + s.params.bankSize ∨ 2 ^ s.params.cidxw ≤ s.cidx + 1) :
    s.advance = s.raise .offsetOverflow := by
  unfold State.advance
  rw [if_neg]
  rw [s.advanceFits_iff]
  omega

/-- R92: the advance is taken at once. -/
theorem State.advanceDue_of_go {s : State} (h : s.paceAnswer = .go) :
    s.advanceDue = State.advance { s with pace := s.pace.tail, pending := none } := by
  unfold State.advanceDue
  rw [h]

/-- R92, R146: the advance is still to come. -/
theorem State.advanceDue_of_rest {s : State} (h : s.paceAnswer = .rest) :
    s.advanceDue = { s with pace := s.pace.tail, pending := some .advance } := by
  unfold State.advanceDue
  rw [h]

/-- R27: the record is not taken yet. -/
theorem State.sendReport_of_wait {s : State} (h : s.rptAnswer = .wait) (off : Nat) (w : Byte) :
    s.sendReport off w = { s with rptAns := s.rptAns.tail, pending := some (.report off w) } := by
  unfold State.sendReport
  rw [h]

/-- R26, R96: the record is taken, then the advance is due. -/
theorem State.sendReport_of_take {s : State} (h : s.rptAnswer = .take) (off : Nat) (w : Byte) :
    s.sendReport off w =
      State.advanceDue { s with rptAns := s.rptAns.tail, trace := s.trace ++ [.report off w] } := by
  unfold State.sendReport
  rw [h]
  rfl

/-- R27: the write is not answered yet. -/
theorem State.memWrite_of_wait {s : State} (h : s.imgAnswer = .wait) (off : Nat) (w : Byte) :
    s.memWrite off w = { s with imgAns := s.imgAns.tail, pending := some (.write off w) } := by
  unfold State.memWrite
  rw [h]

/-- R34: the write fails, on the device's word or outside the image. -/
theorem State.memWrite_of_fails {s : State} {off : Nat} (w : Byte)
    (h : s.imgAnswer = .err ∨ (s.imgAnswer = .ok ∧ s.image.len ≤ off)) :
    s.memWrite off w = State.writeFailed { s with imgAns := s.imgAns.tail } off := by
  unfold State.memWrite
  rcases h with h | ⟨h, hl⟩
  · rw [h]
  · rw [h]
    simp [Nat.not_lt.2 hl]

/-- R34: the write succeeds. -/
theorem State.memWrite_of_ok {s : State} {off : Nat} (w : Byte) (h : s.imgAnswer = .ok)
    (hl : off < s.image.len) :
    s.memWrite off w = State.sendReport { s with
      imgAns := s.imgAns.tail
      image := s.image.setByte off w
      trace := s.trace ++ [.imgWrite off w] } off w := by
  unfold State.memWrite
  rw [h]
  simp only [hl, if_true]
  rfl

/-- R113: the fault entry of a failed write is taken at once. -/
theorem State.writeFaultDue_of_go {s : State} (h : s.paceAnswer = .go) (off : Nat) :
    s.writeFaultDue off = State.raiseIO { s with pace := s.pace.tail } off .write := by
  unfold State.writeFaultDue
  rw [h]

/-- R113, R146: the fault entry of a failed write is still to come. -/
theorem State.writeFaultDue_of_rest {s : State} (h : s.paceAnswer = .rest) (off : Nat) :
    s.writeFaultDue off = { s with pace := s.pace.tail, pending := some (.failing off) } := by
  unfold State.writeFaultDue
  rw [h]

/-- R34: what a failed write leaves before its fault entry. -/
theorem State.writeFailed_eq (s : State) (off : Nat) : ∃ img fr,
    s.writeFailed off = State.writeFaultDue { s with image := img, fresh := fr } off ∧
    img.len = s.image.len ∧ (∀ b, b ≠ off → img.byteAt b = s.image.byteAt b) ∧
    (s.image.len ≤ off → img = s.image) := by
  unfold State.writeFailed
  split_ifs with hl
  · exact ⟨_, _, rfl, rfl, fun b hb => Memory.byteAt_setByte_other hb _ _, fun h => absurd hl (by omega)⟩
  · exact ⟨_, _, rfl, rfl, fun _ _ => rfl, fun _ => rfl⟩

/-- R34: a write outside the image changes no byte. -/
theorem State.writeFailed_outside {s : State} {off : Nat} (h : s.image.len ≤ off) :
    s.writeFailed off = s.writeFaultDue off := by
  unfold State.writeFailed
  rw [if_neg (Nat.not_lt.2 h)]

/-- R27: the read is not answered yet. -/
theorem State.memRead_of_wait {s : State} (h : s.imgAnswer = .wait) (off : Nat) (v c : Byte) :
    s.memReadThenWrite off v c = { s with imgAns := s.imgAns.tail, pending := some (.read off v c) } := by
  unfold State.memReadThenWrite
  rw [h]

/-- R33: the read fails, on the device's word or outside the image. -/
theorem State.memRead_of_fails {s : State} {off : Nat} (v c : Byte)
    (h : s.imgAnswer = .err ∨ (s.imgAnswer = .ok ∧ s.image.len ≤ off)) :
    s.memReadThenWrite off v c = State.raiseIO { s with imgAns := s.imgAns.tail } off .read := by
  unfold State.memReadThenWrite
  rcases h with h | ⟨h, hl⟩
  · rw [h]
  · rw [h]
    simp [Nat.not_lt.2 hl]

/-- R33, R75: the read succeeds, and the write of the byte it selects follows. -/
theorem State.memRead_of_ok {s : State} {off : Nat} (v c : Byte) (h : s.imgAnswer = .ok)
    (hl : off < s.image.len) :
    s.memReadThenWrite off v c = State.memWrite { s with
      imgAns := s.imgAns.tail
      trace := s.trace ++ [.imgRead off (s.image.byteAt off)] } off
      (if s.image.byteAt off = c then v else s.image.byteAt off) := by
  unfold State.memReadThenWrite
  rw [h]
  simp only [hl, if_true]
  rfl

end Sys2Proof.Machine
end

