-- ==== Sys2Proof/Laws/Exec.lean ====
section
/-! SUPPORT. Executions of a code as their shared operations, the Final Offset, and the nibbles a code latches. -/

namespace Sys2Proof.Machine

/-- R61: the Final Offset is a sum of natural numbers that fits. -/
theorem State.finalOffset_some {s : State} {a : Address} {fo : Nat} :
    s.finalOffset a = some fo ↔ fo = a.toNat + s.base ∧ fo < 2 ^ s.params.offw := by
  unfold State.finalOffset
  split_ifs with h
  · rw [Option.some.injEq]
    exact ⟨fun e => ⟨e.symm, e ▸ h⟩, fun e => e.1.symm⟩
  · simp only [false_iff]
    rintro ⟨rfl, hlt⟩
    exact h hlt

theorem State.finalOffset_none {s : State} {a : Address} :
    s.finalOffset a = none ↔ 2 ^ s.params.offw ≤ a.toNat + s.base := by
  unfold State.finalOffset
  split_ifs with h <;> simp <;> omega

/-- The Final Offset depends on the widths and on `BASE` alone. -/
theorem State.finalOffset_congr {s u : State} (hp : u.params = s.params) (hb : u.base = s.base) (a : Address) :
    u.finalOffset a = s.finalOffset a := by
  simp only [State.finalOffset, hp, hb]

/-- The state of `s` with the nibble files an instruction leaves. -/
def State.latched (s : State) : Instr → State
  | .gg6 x a v => s.latchGg6 (encodeNibbles (.gg6 x a v))
  | .gg8 x a v c => s.latchGg8 (encodeNibbles (.gg8 x a v c))

/-- The access phase of an instruction at its Final Offset. -/
def State.access (s : State) (fo : Nat) : Instr → State
  | .gg6 _ _ v => s.memWrite fo v
  | .gg8 _ _ v c => s.memReadThenWrite fo v c

/-- R70, R75: an execution latches, then either faults on its Final Offset or goes into its access phase. -/
theorem exec_eq (i : Instr) (s : State) : exec i s = .next (match s.finalOffset (addressOf i) with
    | none => (s.latched i).raise .offsetOverflow
    | some fo => (s.latched i).access fo i) := by
  cases i with
  | gg6 x a v =>
    simp only [exec, execGg6, addressOf]
    cases s.finalOffset a <;> rfl
  | gg8 x a v c =>
    simp only [exec, execGg8, addressOf]
    cases s.finalOffset a <;> rfl

/-- An execution answers a next state, whatever the state. -/
theorem exec_next (i : Instr) (s : State) : ∃ t, exec i s = .next t := ⟨_, exec_eq i s⟩

/-- Latching changes the nibble files and nothing else. -/
theorem State.latched_eq (s : State) (i : Instr) :
    s.latched i = { s with d := (s.latched i).d, r := (s.latched i).r } := by
  cases i <;> rfl

/-- What an access phase can change. -/
theorem State.access_frame (s : State) (fo : Nat) (i : Instr) : CodeFrame fo s (s.access fo i) := by
  cases i with
  | gg6 x a v => exact s.memWrite_frame fo v
  | gg8 x a v c => exact s.memReadThenWrite_frame fo v c

/-- Everything an execution can change: the nibble files, and what `CodeFrame` says at its Final Offset; where
that does not fit, the fault entry only. -/
theorem exec_cases {i : Instr} {s t : State} (h : exec i s = .next t) :
    (∃ fo, s.finalOffset (addressOf i) = some fo ∧ t = (s.latched i).access fo i ∧
      CodeFrame fo (s.latched i) t) ∨
    (s.finalOffset (addressOf i) = none ∧ t = (s.latched i).raise .offsetOverflow) := by
  rw [exec_eq] at h
  cases hf : s.finalOffset (addressOf i) with
  | none => rw [hf] at h; cases h; exact .inr ⟨rfl, rfl⟩
  | some fo => rw [hf] at h; cases h; exact .inl ⟨fo, rfl, rfl, (s.latched i).access_frame fo i⟩

end Sys2Proof.Machine
end

