-- ==== Sys2Proof/Laws/PerInstr.lean ====
section
/-! SUPPORT. Statements for each instruction as syntax, one lemma for each constructor. -/

namespace Sys2Proof.Laws.EncodedIsLegal

/-- R52, R64: the code that stands for an instruction is legal, and its length selects the form. -/
def Statement (i : Instr) : Prop :=
  classify (encode i) = match i with
    | .gg6 _ _ _ => .gg6
    | .gg8 _ _ _ _ => .gg8

theorem gg6 (x : Bool) (a : Address) (v : Byte) : Statement (.gg6 x a v) := by
  simp [Statement, encode, classify_symbols]

theorem gg8 (x : Bool) (a : Address) (v c : Byte) : Statement (.gg8 x a v c) := by
  simp [Statement, encode, classify_symbols]

end Sys2Proof.Laws.EncodedIsLegal
end

