-- ==== Sys2Proof/Laws/Step.lean ====
section
/-! SUPPORT. The one inversion lemma of the step function. -/

namespace Sys2Proof.Machine

/-- The token of a terminator. -/
def Terminator.token : Terminator → Token
  | .sep => .sep
  | .fin => .fin

/-- A terminator accepted: the tokens left, and the code in execution. -/
def State.accepted (s : State) (k : Terminator) (ts : List Token) : State :=
  { s with host := s.host.tail, cq := ts, executing := some k }

/-- Everything a step that answers a next state can have been. -/
inductive StepCase (s : State) : State → Prop
  /-- The block waits: outside `RUN`, or for a token. -/
  | waits (hp : s.passes) (h : s.runState ≠ .run ∨ s.cq = []) (ho : s.pending = none) :
      StepCase s { s with host := s.host.tail }
  /-- The block looks again at what is outstanding. -/
  | resumes (hp : s.passes) (p : Pending) (hr : s.runState = .run) (ho : s.pending = some p) :
      StepCase s (State.resume { s with host := s.host.tail } p).finishCode
  /-- A `CHAR` token. -/
  | char (hp : s.passes) (c : Nat) (ts : List Token) (hr : s.runState = .run) (ho : s.pending = none)
      (hq : s.cq = .char c :: ts) :
      StepCase s (State.latchChar { s with host := s.host.tail, cq := ts } c)
  /-- A terminator whose code is illegal. -/
  | illegal (hp : s.passes) (k : Terminator) (ts : List Token) (hr : s.runState = .run) (ho : s.pending = none)
      (hq : s.cq = k.token :: ts) (c : Cause)
      (hc : (s.currentCode = .invalidCharacter ∧ c = .invalidCharacter) ∨
        (s.currentCode = .invalidLength ∧ c = .invalidLength)) :
      StepCase s ((s.accepted k ts).raise c)
  /-- A terminator whose code is executed. -/
  | executes (hp : s.passes) (k : Terminator) (ts : List Token) (hr : s.runState = .run) (ho : s.pending = none)
      (hq : s.cq = k.token :: ts) (i : Instr) (hi : s.currentCode = .instr i) (u : State)
      (hu : exec i (s.accepted k ts) = .next u) :
      StepCase s u.finishCode
  /-- `RESET`. -/
  | reset (ms : List HostMove) (hh : s.host = .reset :: ms) : StepCase s { s with host := ms }.applyReset
  /-- A register write. -/
  | write (r : HostReg) (n : Nat) (ms : List HostMove) (hh : s.host = .write r n :: ms) :
      StepCase s (State.hostWrite { s with host := ms } r n)
  /-- A register read. -/
  | read (r : HostReg) (ms : List HostMove) (hh : s.host = .read r :: ms) :
      StepCase s { s with host := ms, readLog := s.readLog ++ [(r, s.hostRead r)] }
  /-- A token offered. -/
  | offer (k : Token) (ms : List HostMove) (hh : s.host = .offer k :: ms) :
      StepCase s { s with host := ms, cq := s.cq ++ [k.onPort s.params] }
  /-- A new image, outside a run. -/
  | loadImage (len : Nat) (cells : List Host.Cell) (ms : List HostMove)
      (hh : s.host = .loadImage len cells :: ms) (hr : s.runState ≠ .run) (hl : len ≤ 2 ^ s.params.offw) :
      StepCase s { s with host := ms, image := Memory.ofCells len cells }

/-- Where the host passes, a step is the block's own. -/
theorem step_of_passes {s : State} (h : s.passes) :
    step s = State.blockStep { s with host := s.host.tail } := by
  obtain ⟨⟩ := s
  rename_i host _ _ _
  cases host with
  | nil => rfl
  | cons m ms =>
    simp only [State.passes, List.headD_cons] at h
    subst h
    rfl

/-- A fault entered makes `finishCode` idle. -/
theorem State.finishCode_raise (s : State) (c : Cause) : (s.raise c).finishCode = s.raise c := rfl

/-- The execution of the arrived code, on the accepted state. -/
theorem State.executeCode_cases {s : State} {o : Host.Outcome State Fault Refusal} (h : s.executeCode = o) :
    (∃ i, s.currentCode = .instr i ∧ o = exec i s) ∨
    (s.currentCode = .invalidCharacter ∧ o = .next (s.raise .invalidCharacter)) ∨
    (s.currentCode = .invalidLength ∧ o = .next (s.raise .invalidLength)) := by
  unfold State.executeCode at h
  cases hd : s.currentCode with
  | instr i => rw [hd] at h; exact .inl ⟨i, rfl, h.symm⟩
  | invalidCharacter => rw [hd] at h; exact .inr (.inl ⟨rfl, h.symm⟩)
  | invalidLength => rw [hd] at h; exact .inr (.inr ⟨rfl, h.symm⟩)

/-- What follows an outcome is a next state only where the outcome is. -/
theorem andThen_next {o : Host.Outcome State Fault Refusal} {f : State → State} {t : State}
    (h : andThen o f = .next t) : ∃ u, o = .next u ∧ t = f u := by
  cases o with
  | next u => exact ⟨u, rfl, by simpa [andThen] using h.symm⟩
  | fault r => simp [andThen] at h
  | refused r => simp [andThen] at h

/-- The terminator case of a step of the block. -/
theorem StepCase.ofTerminator {s t : State} (hp : s.passes) (hr : s.runState = .run) (ho : s.pending = none)
    (k : Terminator) (ts : List Token) (hq : s.cq = k.token :: ts)
    (h : andThen (s.accepted k ts).executeCode State.finishCode = .next t) : StepCase s t := by
  obtain ⟨u, hu, rfl⟩ := andThen_next h
  rcases State.executeCode_cases hu with ⟨i, hi, he⟩ | ⟨hd, he⟩ | ⟨hd, he⟩
  · exact .executes hp k ts hr ho hq i hi u he.symm
  · cases he
    exact .illegal hp k ts hr ho hq .invalidCharacter (.inl ⟨hd, rfl⟩)
  · cases he
    exact .illegal hp k ts hr ho hq .invalidLength (.inr ⟨hd, rfl⟩)

/-- The block's own step. -/
theorem StepCase.ofBlock {s t : State} (hp : s.passes)
    (h : State.blockStep { s with host := s.host.tail } = .next t) : StepCase s t := by
  by_cases hr : s.runState = .run
  · simp only [State.blockStep, hr, State.runStep] at h
    cases ho : s.pending with
    | some p =>
      rw [ho] at h
      simp only [Host.Outcome.next.injEq] at h
      subst h
      have := StepCase.resumes hp p hr ho
      rwa [hr, ho] at this
    | none =>
      rw [ho] at h
      cases hq : s.cq with
      | nil =>
        rw [hq] at h
        simp only [Host.Outcome.next.injEq] at h
        subst h
        have := StepCase.waits hp (.inr hq) ho
        rwa [hr, ho, hq] at this
      | cons k ts =>
        rw [hq] at h
        cases k with
        | char c =>
          simp only [State.acceptToken, Host.Outcome.next.injEq] at h
          subst h
          have := StepCase.char hp c ts hr ho hq
          rwa [hr, ho] at this
        | sep =>
          refine .ofTerminator hp hr ho .sep ts hq ?_
          rw [State.accepted, hr, ho]
          exact h
        | fin =>
          refine .ofTerminator hp hr ho .fin ts hq ?_
          rw [State.accepted, hr, ho]
          exact h
  · have hs : State.blockStep { s with host := s.host.tail } =
        if s.pending.isSome then .fault .strayRequest else .next { s with host := s.host.tail } := by
      unfold State.blockStep
      cases hx : s.runState <;> simp_all
    rw [hs] at h
    cases ho : s.pending with
    | some p => simp [ho] at h
    | none =>
      have := StepCase.waits hp (.inl hr) ho
      simp only [ho, Option.isSome_none, Bool.false_eq_true, if_false, Host.Outcome.next.injEq] at h
      subst h
      rwa [ho] at this

/-- Everything a step can do. -/
theorem step_cases {s t : State} (h : step s = .next t) : StepCase s t := by
  cases hh : s.host with
  | nil =>
    have hp : s.passes := by simp [State.passes, hh]
    exact .ofBlock hp (by rwa [step_of_passes hp] at h)
  | cons m ms =>
    cases m with
    | pass =>
      have hp : s.passes := by simp [State.passes, hh]
      exact .ofBlock hp (by rwa [step_of_passes hp] at h)
    | reset =>
      simp only [step, State.turn, hh, State.hostMove, Host.Outcome.next.injEq] at h
      subst h; exact .reset ms hh
    | write r n =>
      simp only [step, State.turn, hh, State.hostMove, Host.Outcome.next.injEq] at h
      subst h; exact .write r n ms hh
    | read r =>
      simp only [step, State.turn, hh, State.hostMove, Host.Outcome.next.injEq] at h
      subst h
      have : State.hostRead { s with host := ms } r = s.hostRead r := by cases r <;> rfl
      rw [this]
      exact .read r ms hh
    | offer k =>
      simp only [step, State.turn, hh, State.hostMove, Host.Outcome.next.injEq] at h
      subst h; exact .offer k ms hh
    | loadImage len cells =>
      simp only [step, State.turn, hh, State.hostMove, State.hostLoadImage] at h
      have hr : s.runState ≠ .run := by
        intro hr; simp [hr] at h
      by_cases hl : len ≤ 2 ^ s.params.offw
      · have : (Host.Outcome.next { s with host := ms, image := Memory.ofCells len cells } :
            Host.Outcome State Fault Refusal) = .next t := by
          cases hx : s.runState <;> simp_all
        cases this
        exact .loadImage len cells ms hh hr hl
      · exfalso
        cases hx : s.runState <;> simp_all

/-- Everything a register write can do (R14, R19, R85, R86, R88). -/
theorem State.hostWrite_cases (s : State) (r : HostReg) (n : Nat) :
    s.hostWrite r n = s ∨
    (r = .mode ∧ s.acceptsCommands = true ∧ s.hostWrite r n = { s with mode := n % 2 ^ s.params.modeW }) ∨
    (r = .ctrl ∧ s.acceptsCommands = true ∧ s.mode = s.params.modeP0 ∧ s.hostWrite r n = s.startAccepted) ∨
    (r = .ctrl ∧ s.acceptsCommands = true ∧ s.mode ≠ s.params.modeP0 ∧ s.hostWrite r n = s.startRejected) := by
  cases r with
  | mode =>
    cases ha : s.acceptsCommands
    · exact .inl (by simp [State.hostWrite, State.writeMode, ha])
    · exact .inr (.inl ⟨rfl, rfl, by simp [State.hostWrite, State.writeMode, ha]⟩)
  | ctrl =>
    cases hb : n.testBit 0
    · exact .inl (by simp only [State.hostWrite, hb, Bool.false_eq_true, if_false])
    · cases ha : s.acceptsCommands
      · exact .inl (by simp only [State.hostWrite, State.start, ha, hb, Bool.false_eq_true, if_true, if_false])
      · by_cases hm : s.mode = s.params.modeP0
        · exact .inr (.inr (.inl ⟨rfl, rfl, hm, by
            simp only [State.hostWrite, State.start, ha, hb, hm, if_true]⟩))
        · exact .inr (.inr (.inr ⟨rfl, rfl, hm, by
            simp only [State.hostWrite, State.start, ha, hb, hm, if_true, if_false]⟩))
  | status => exact .inl rfl
  | base => exact .inl rfl
  | cidx => exact .inl rfl
  | foff => exact .inl rfl

/-- Everything the end of a code can do (R90, R98). -/
theorem State.finishCode_cases (s : State) :
    s.finishCode = s ∨
    (s.runState = .run ∧ s.pending = none ∧ s.executing = some .sep ∧
      s.finishCode = { s with pace := s.pace.tail, len := 0, bad := false, executing := none }) ∨
    (s.runState = .run ∧ s.pending = none ∧ s.executing = some .fin ∧
      s.finishCode = { s with
        pace := s.pace.tail, runState := .done, executing := none, trace := s.trace ++ [.done s.cidx] }) ∨
    (s.runState = .run ∧ s.pending = none ∧ s.executing.isSome ∧
      s.finishCode = { s with pace := s.pace.tail, pending := some .ending }) := by
  unfold State.finishCode
  split
  · rename_i k hr hp he
    cases s.paceAnswer with
    | rest => exact .inr (.inr (.inr ⟨hr, hp, by simp [he], rfl⟩))
    | go =>
      cases k with
      | sep => exact .inr (.inl ⟨hr, hp, he, rfl⟩)
      | fin => exact .inr (.inr (.inl ⟨hr, hp, he, rfl⟩))
  · exact .inl rfl

/-- R90, R98: the code ends at once. -/
theorem State.finishCode_of_go {s : State} (hr : s.runState = .run) (hp : s.pending = none) {k : Terminator}
    (he : s.executing = some k) (h : s.paceAnswer = .go) :
    s.finishCode = State.endCode { s with pace := s.pace.tail } k := by
  unfold State.finishCode
  rw [hr, hp, he, h]

/-- R90, R146: the end of the code is still to come. -/
theorem State.finishCode_of_rest {s : State} (hr : s.runState = .run) (hp : s.pending = none) {k : Terminator}
    (he : s.executing = some k) (h : s.paceAnswer = .rest) :
    s.finishCode = { s with pace := s.pace.tail, pending := some .ending } := by
  unfold State.finishCode
  rw [hr, hp, he, h]

/-- The end of a code has no effect while the code stands at something or after a fault. -/
theorem State.finishCode_of_idle {s : State} (h : s.runState ≠ .run ∨ s.pending.isSome) : s.finishCode = s := by
  rcases s.finishCode_cases with he | ⟨hr, hp, -⟩ | ⟨hr, hp, -⟩ | ⟨hr, hp, -⟩
  · exact he
  all_goals simp [hr, hp] at h

/-- The image after `RESET` is the image before, or has the byte under the outstanding write replaced (R133). -/
theorem State.imageAfterReset_cases (s : State) :
    s.imageAfterReset = s.image ∨
    ∃ off w, s.pending = some (.write off w) ∧ off < s.image.len ∧
      s.imageAfterReset = s.image.setByte off w := by
  unfold State.imageAfterReset
  split
  · split_ifs
    · exact .inr ⟨_, _, by assumption, by assumption, rfl⟩
    · exact .inl rfl
    · exact .inl rfl
  all_goals exact .inl rfl

end Sys2Proof.Machine
end

