-- ==== Sys2Proof/Tests/Slice0.lean ====
section
/-! SUPPORT. Tests with results from 95_test_vectors.md, and a witness for the hypotheses of each obligation. -/

namespace Sys2Proof.Tests

open Sys2Proof.Machine

/-! ### Well-formedness -/

theorem test_wf_gg6_highest_address : (Instr.gg6 true 0x7FFF 0xFF).wf = true := by decide

/-- R58: no code of six characters has `A[15]` set. -/
theorem test_wf_refuses_gg6_address : (Instr.gg6 false 0x8000 0x00).wf = false := by decide

theorem test_wf_gg8_highest_address : (Instr.gg8 true 0x7FFF 0xFF 0xFF).wf = true := by decide

/-- R58: no code of eight characters has `A[15]` set. -/
theorem test_wf_refuses_gg8_address : (Instr.gg8 false 0x8000 0x00 0x00).wf = false := by decide

/-! ### Decoding, from 95_test_vectors.md sections 2.1 to 2.5 -/

/-- S3 `SXIOPO`, the word written out nibble by nibble. -/
theorem test_decode_gg6_bits :
    decodeTableWord 24 0b1101_1010_0101_1001_0001_1001 = some (.gg6 false 0x11D9 0xAD) := by decide

/-- S5 `TYEOXU`. -/
theorem test_decode_gg6_S5 : decodeTableWord 24 0x6789AB = some (.gg6 true 0x1B0A 0x7E) := by decide

/-- The one-hot rows `AAEAAA` (the ignored bit), `AAAAEA` and `AAAAAE`. -/
theorem test_decode_gg6_one_hot :
    decodeTableWord 24 0x008000 = some (.gg6 true 0 0) ∧ decodeTableWord 24 0x000080 = some (.gg6 false 0x0800 0) ∧
    decodeTableWord 24 0x000008 = some (.gg6 false 0 0x08) := by decide

/-- E6 `ZEXPYGLA`, the word written out nibble by nibble. -/
theorem test_decode_gg8_bits :
    decodeTableWord 32 0b0010_1000_1010_0001_0111_0100_0011_0000 = some (.gg8 true 0x14A7 0x02 0x03) := by decide

/-- E12 `AAAAAAEE`, and E7 `SXIOPOAA`, where the formula of 90_conflicts.md C1 decides `V`. -/
theorem test_decode_gg8_E12_E7 :
    decodeTableWord 32 0x00000088 = some (.gg8 false 0 0x08 0x80) ∧
    decodeTableWord 32 0xDA591900 = some (.gg8 false 0x11D9 0xA5 0x08) := by decide

/-- Section 2.1: `AAAAAQ`, `AAAAAQA`, `aaaaaa`, `AAAAAAA` and the empty code. -/
theorem test_decode_refuses :
    decodeCode [0x41, 0x41, 0x41, 0x41, 0x41, 0x51] = .invalidCharacter ∧
    decodeCode [0x41, 0x41, 0x41, 0x41, 0x41, 0x51, 0x41] = .invalidCharacter ∧
    decodeCode [0x61, 0x61, 0x61, 0x61, 0x61, 0x61] = .invalidCharacter ∧
    decodeCode [0x41, 0x41, 0x41, 0x41, 0x41, 0x41, 0x41] = .invalidLength ∧
    decodeCode [] = .invalidLength := by decide

/-- Section 2.5: `TIUPGZ` and `ZGAAIEOP`. -/
theorem test_encode :
    encode (.gg6 true 0x1234 0x56) = [0x54, 0x49, 0x55, 0x50, 0x47, 0x5A] ∧
    encode (.gg8 false 0x0005 0x42 0x99) = [0x5A, 0x47, 0x41, 0x41, 0x49, 0x45, 0x4F, 0x50] := by decide

/-! ### One step -/

/-- A field of the next state. -/
def after {α : Type} (o : Host.Outcome State Fault Refusal) (f : State → α) : Option α :=
  match o with
  | .next t => some (f t)
  | .fault _ => none
  | .refused _ => none

/-- An image of `len` bytes, all 0xEE but one. -/
def imageWith (len a : Nat) (b : Byte) : Memory := Memory.ofCells len [(a, b)]

/-- A block in `RUN` with `BASE = 0x10`, `CIDX = 0`, and an image of 0x18010 bytes. -/
def running : State :=
  { State.reset with mode := 0, runState := .run, image := imageWith 0x18010 0 0xEE }

/-- P1, first code: `SXIOPO` writes 0xAD at 0x11E9 and `BASE` advances by one bank. -/
theorem test_step_gg6 :
    after (step (running.withFetchWord 24 0xDA5919)) (fun t => (t.image.byteAt 0x11E9, t.trace, t.base, t.cidx)) =
      some (0xAD, [.imgWrite 0x11E9 0xAD, .report 0x11E9 0xAD], 0x8010, 1) := by decide

/-- Section 2.7: `AAAAAA` with `IMG_LEN = 0x10`. -/
theorem test_step_gg6_short_image :
    after (step ({ running with image := imageWith 0x10 0 0xEE }.withFetchWord 24 0))
      (fun t => (t.runState, t.cause, t.cidx, t.base, t.foff, t.fop)) =
      some (.fault, .imageIOError, 0, 0x10, 0x10, .write) := by decide

/-- Section 2.4, first row: `ZEXPYGLA` on the live byte 0x03. -/
theorem test_step_gg8_match :
    after (step ({ running with image := imageWith 0x18010 0x14B7 0x03 }.withFetchWord 32 0x28A17430))
      (fun t => (t.image.byteAt 0x14B7, t.trace)) =
      some (0x02, [.imgRead 0x14B7 0x03, .imgWrite 0x14B7 0x02, .report 0x14B7 0x02]) := by decide

/-- Section 2.4, third row: the live byte 0x09 is written back. -/
theorem test_step_gg8_no_match :
    after (step ({ running with image := imageWith 0x18010 0x14B7 0x09 }.withFetchWord 32 0x28A17430))
      (fun t => (t.image.byteAt 0x14B7, t.trace)) =
      some (0x09, [.imgRead 0x14B7 0x09, .imgWrite 0x14B7 0x09, .report 0x14B7 0x09]) := by decide

/-- Section 2.7: `START` right after `RESET` faults. -/
theorem test_start_after_reset :
    after (step { State.reset with host := [.write .ctrl 1] }) (fun t => (t.hostRead .status, t.base, t.trace)) =
      some (7, 0x10, [.start 3, .fault .platformNotImplemented 0]) := by decide

/-- R6: other widths. `OFFW = 16`: `AAAAAA` at `BASE = 0x8010` writes there, and the advance does not fit. -/
theorem test_other_offw :
    after (step ({ running with
        params := { Params.default with offw := 16 }, base := 0x8010, cidx := 1,
        image := imageWith 0x10000 0 0xEE }.withFetchWord 24 0))
      (fun t => (t.image.byteAt 0x8010, t.cause, t.base, t.cidx)) = some (0, .offsetOverflow, 0x8010, 1) := by
  decide

/-- R6: `MODE_W = 4`, `CHAR_W = 7`: the selector keeps four bits and is 15 after `RESET`; a character keeps seven. -/
theorem test_other_mode_and_char_width :
    let s : State := { State.reset with params := { Params.default with modeW := 4, charW := 7 } }
    after (step { s with host := [.write .mode 0x1B] }) State.mode = some 0xB ∧
    after (step { s with host := [.reset] }) State.mode = some 15 ∧
    after (step { s with host := [.offer (.char 0xC1)] }) State.cq = some [.char 0x41] ∧
    s.params.wf = true ∧ Params.wf { Params.default with charW := 6 } = false := by decide

/-! ### Witnesses for the hypotheses of the obligations -/

/-- `running` with a code arrived and the given tokens offered. -/
def arrived (code : List Nat) (ts : List Token) : State :=
  { running.latchChars code with cq := ts }

/-- The code `SXIOPO` (S3). -/
def codeS3 : List Nat := [0x53, 0x58, 0x49, 0x4F, 0x50, 0x4F]

/-- The code `ZEXPYGLA` (E6). -/
def codeE6 : List Nat := [0x5A, 0x45, 0x58, 0x50, 0x59, 0x47, 0x4C, 0x41]

theorem running_inv : running.Inv := by
  constructor
  case bounded => constructor <;> first | decide | exact fun _ _ h => nomatch h
  all_goals first | decide | exact fun _ _ h => nomatch h

/-- The six-character, eight-character and illegal codes of the clauses, at lengths 5 to 9; `LEN` 0, 6, 8, 15. -/
theorem witness_ClassificationInRuleOrder :
    (∃ c ∈ ([0x41, 0x51] : List Nat), alpha c = none) ∧
    ((∀ c ∈ codeS3, alpha c ≠ none) ∧ codeS3.length = 6) ∧ ((∀ c ∈ codeE6, alpha c ≠ none) ∧ codeE6.length = 8) ∧
    (classify (codeS3.take 5), classify codeS3, classify (codeE6.take 7), classify codeE6,
        classify (0x41 :: codeE6)) =
      (.invalidLength, .gg6, .invalidLength, .gg8, .invalidLength) ∧
    (classifyLatched 0 false, classifyLatched 6 false, classifyLatched 8 false, classifyLatched 15 false) =
      (.invalidLength, .gg6, .gg8, .invalidLength) := by decide

theorem witness_DecodeOfEncodeIsIdentity :
    (Instr.gg6 true 0x7FFF 0xFF).wf = true ∧ (Instr.gg8 false 0x7FFF 0x00 0xFF).wf = true := by decide

theorem witness_EncodeOfDecodeIsIdentity :
    decodeCode codeS3 = .instr (.gg6 false 0x11D9 0xAD) ∧
    decodeCode codeE6 = .instr (.gg8 true 0x14A7 0x02 0x03) := by decide

theorem witness_IgnoredBitChangesNothing :
    (0xD#4 &&& 0x7#4 = (#v[0, 0, 5, 0, 0, 0, 0, 0] : NibbleFile)[2] &&& 0x7#4) := by decide

/-- The block at the last position whose `BASE` fits `OFFW` bits. -/
def lastBank : State := { running with base := 0xFFFF8010, cidx := 131071 }

/-- The clauses of `GG6` at their boundaries: an address one too high, the last offset, the last byte of the image,
the first beyond it, a failing device; an advance that just fits and one that does not. -/
theorem witness_Gg6FollowsItsPseudocode :
    addressFits 0x7FFF = true ∧
    2 ^ lastBank.params.offw ≤ (0x7FF0 : Address).toNat + lastBank.base ∧
    (0xFFFFFFFF = (0x7FEF : Address).toNat + lastBank.base ∧ 0xFFFFFFFF < 2 ^ lastBank.params.offw) ∧
    (running.imgAnswer = .ok ∧ running.rptAnswer = .take ∧ 0x1800F < running.image.len ∧
      running.image.len ≤ 0x18010) ∧
    State.imgAnswer { running with imgAns := [.err] } = .err ∧
    (running.base + running.params.bankSize < 2 ^ running.params.offw ∧
      running.cidx + 1 < 2 ^ running.params.cidxw) ∧
    2 ^ lastBank.params.offw ≤ lastBank.base + lastBank.params.bankSize ∧
    2 ^ running.params.cidxw ≤ 0xFFFFFFFF + 1 ∧
    State.imgAnswer { running with imgAns := [.wait] } = .wait ∧
    State.rptAnswer { running with rptAns := [.wait] } = .wait ∧
    (running.paceAnswer = .go ∧ State.paceAnswer { running with pace := [.rest] } = .rest) := by decide

/-- For `GG8` also: a read that succeeds and a write that fails. -/
theorem witness_Gg8FollowsItsPseudocode :
    addressFits 0x7FFF = true ∧
    2 ^ lastBank.params.offw ≤ (0x7FF0 : Address).toNat + lastBank.base ∧
    (0xFFFFFFFF = (0x7FEF : Address).toNat + lastBank.base ∧ 0xFFFFFFFF < 2 ^ lastBank.params.offw) ∧
    (running.imgAnswer = .ok ∧ running.imgAns.tail.headD .ok = .ok ∧ running.rptAnswer = .take ∧
      0x1800F < running.image.len ∧ running.image.len ≤ 0x18010) ∧
    (State.imgAnswer { running with imgAns := [.ok, .err] } = .ok ∧
      ([.ok, .err] : List ImgAnswer).tail.headD .ok = .err) ∧
    State.imgAnswer { running with imgAns := [.err] } = .err ∧
    (running.base + running.params.bankSize < 2 ^ running.params.offw ∧
      running.cidx + 1 < 2 ^ running.params.cidxw) ∧
    2 ^ lastBank.params.offw ≤ lastBank.base + lastBank.params.bankSize ∧
    (State.imgAnswer { running with imgAns := [.ok, .wait] } = .ok ∧
      ([.ok, .wait] : List ImgAnswer).tail.headD .ok = .wait) ∧
    State.imgAnswer { running with imgAns := [.wait] } = .wait ∧
    State.rptAnswer { running with rptAns := [.wait] } = .wait ∧
    (running.paceAnswer = .go ∧ State.paceAnswer { running with pace := [.rest] } = .rest) := by decide

/-- A completed execution, a faulted one and a waiting one; a Final Offset that fits and one that does not. -/
theorem witness_Gg6Frame :
    after (exec (.gg6 false 0x11D9 0xAD) running) (fun t => (t.runState, t.pending.isSome)) = some (.run, false) ∧
    after (exec (.gg6 false 0x11D9 0xAD) { running with imgAns := [.err] }) (fun t => t.runState) = some .fault ∧
    after (exec (.gg6 false 0x11D9 0xAD) { running with imgAns := [.wait] }) (fun t => t.pending.isSome) =
      some true ∧
    lastBank.finalOffset 0x7FEF = some 0xFFFFFFFF ∧ lastBank.finalOffset 0x7FF0 = none := by decide

theorem witness_Gg8Frame :
    after (exec (.gg8 true 0x14A7 0x02 0x03) running) (fun t => (t.runState, t.pending.isSome)) =
      some (.run, false) ∧
    after (exec (.gg8 true 0x14A7 0x02 0x03) { running with imgAns := [.err] }) (fun t => t.runState) =
      some .fault ∧
    after (exec (.gg8 true 0x14A7 0x02 0x03) { running with imgAns := [.wait] }) (fun t => t.pending.isSome) =
      some true ∧
    lastBank.finalOffset 0x7FEF = some 0xFFFFFFFF ∧ lastBank.finalOffset 0x7FF0 = none := by decide

theorem witness_WaitingCodeGoesOnUnchanged :
    running.finalOffset (addressOf (.gg8 true 0x14A7 0x02 0x03)) = some 0x14B7 ∧
    State.imgAns { running with imgAns := [.wait] } = .wait :: [] := by decide

theorem witness_OutstandingRequestGoesOnUnchanged :
    State.imgAns { running with imgAns := [.wait, .err] } = .wait :: [.err] ∧
    State.rptAns { running with rptAns := [.wait] } = .wait :: [] ∧
    State.pace { running with pace := [.rest] } = .rest :: [] := by decide

theorem witness_Gg6IgnoresImageContents :
    (imageWith 0x18010 0x11E9 0x77).len = running.image.len ∧
    (after (exec (.gg6 false 0x11D9 0xAD) running) State.runState).isSome = true ∧
    (after (exec (.gg6 false 0x11D9 0xAD) { running with image := imageWith 0x18010 0x11E9 0x77 })
      State.runState).isSome = true := by decide

/-- Two images that differ, but not at the Final Offset. -/
theorem witness_Gg8DependsOnOneByte :
    (imageWith 0x18010 0x11E9 0x77).len = running.image.len ∧ imageWith 0x18010 0x11E9 0x77 ≠ running.image ∧
    running.finalOffset 0x14A7 = some 0x14B7 ∧
    (imageWith 0x18010 0x11E9 0x77).byteAt 0x14B7 = running.image.byteAt 0x14B7 ∧
    (after (exec (.gg8 true 0x14A7 0x02 0x03) running) State.runState).isSome = true ∧
    (after (exec (.gg8 true 0x14A7 0x02 0x03) { running with image := imageWith 0x18010 0x11E9 0x77 })
      State.runState).isSome = true := by decide

theorem running_quiet : running.quietEnv := ⟨rfl, rfl, rfl, rfl⟩

/-- P6: the first application matches, the second finds the value it left. -/
theorem witness_Gg8IsIdempotentOnContent :
    ∃ s t s2 t2 : State, s.image.wf = true ∧ s.quietEnv ∧ exec (.gg8 true 0x14A7 0x02 0x03) s = .next t ∧
      s2.quietEnv ∧ s2.params = s.params ∧ s2.base = s.base ∧ s2.image = t.image ∧ exec (.gg8 true 0x14A7 0x02 0x03) s2 = .next t2 ∧
      s.image ≠ t.image :=
  ⟨{ running with image := imageWith 0x18010 0x14B7 0x03 }, _,
    { running with image := imageWith 0x18010 0x14B7 0x02 }, _,
    by decide, ⟨rfl, rfl, rfl, rfl⟩, rfl, ⟨rfl, rfl, rfl, rfl⟩, rfl, rfl, by decide, rfl, by decide⟩

/-- The block after one code, at the second position. -/
def secondPosition : State := { running with cidx := 1, base := 0x8010 }

theorem secondPosition_inv : secondPosition.Inv := by
  constructor
  case bounded => constructor <;> first | decide | exact fun _ _ h => nomatch h
  all_goals first | decide | exact fun _ _ h => nomatch h

/-- The windows touch at 0x800F and 0x8010. -/
theorem witness_PositionsNeverShareAnOffset :
    running.Inv ∧ secondPosition.Inv ∧ secondPosition.params = running.params ∧
      0x8000 ≤ running.params.bankSize ∧ addressFits 0x7FFF = true ∧ addressFits 0x0000 = true ∧
      running.cidx ≠ secondPosition.cidx ∧ running.finalOffset 0x7FFF = some 0x800F ∧
      secondPosition.finalOffset 0x0000 = some 0x8010 :=
  ⟨running_inv, secondPosition_inv, by decide⟩

theorem witness_MemWriteRule :
    running.image.wf = true ∧ State.imgAnswer { running with imgAns := [.wait] } = .wait ∧
    running.imgAnswer = .ok ∧ 0x1800F < running.image.len ∧
    State.imgAnswer { running with imgAns := [.err] } = .err ∧ running.image.len ≤ 0x18010 ∧
    running.paceAnswer = .go ∧ State.paceAnswer { running with pace := [.rest] } = .rest := by
  decide

theorem witness_MemReadRule :
    running.imgAnswer = .ok ∧ 0x1800F < running.image.len ∧
    State.imgAnswer { running with imgAns := [.err] } = .err ∧ running.image.len ≤ 0x18010 := by
  decide

/-- The last position whose advance fits and the first whose advance does not (section 2.6). -/
theorem witness_AdvanceRule :
    running.params = Params.default ∧
    0xFFFF0010 = 0x10 + 131070 * 0x8000 ∧
    0xFFFF0010 + 0x8000 < 2 ^ 32 ∧
    0xFFFF8010 = 0x10 + 131071 * 0x8000 ∧
    2 ^ 32 ≤ 0xFFFF8010 + 0x8000 := by decide

/-- A block in `FAULT` whose host passes. -/
def faulted : State := { running with runState := .fault, cause := .invalidLength }

theorem witness_FaultEntryRecordsAndStops :
    faulted.runState = .fault ∧ faulted.pending = none ∧ faulted.passes := ⟨rfl, rfl, rfl⟩

theorem witness_StepExecutesTheDecodedCode :
    (∀ ts, (arrived codeS3 ts).passes) ∧ (arrived codeS3 [.sep]).runState = .run ∧
      (arrived codeS3 [.sep]).pending = none ∧
      (arrived codeS3 [.sep]).currentCode = .instr (.gg6 false 0x11D9 0xAD) ∧
      (arrived codeS3 [.sep]).cq = .sep :: [] ∧ (arrived codeS3 [.fin]).cq = .fin :: [] :=
  ⟨fun _ => rfl, by decide⟩

theorem witness_PlacedWordIsTheNextCode :
    decodeTableWord 24 0xDA5919 = some (.gg6 false 0x11D9 0xAD) ∧
    decodeTableWord 32 0x28A17430 = some (.gg8 true 0x14A7 0x02 0x03) := by decide

/-- `AAAAAQ` with `SEP`, `AAAAAAA` with `END`, and the empty code. -/
theorem witness_IllegalCodeFaultsWithoutEffect :
    (State.passes ({ running with len := 0, bad := false, cq := [.sep] }.latchChars
      [0x41, 0x41, 0x41, 0x41, 0x41, 0x51])) ∧
    (∃ c ∈ ([0x41, 0x41, 0x41, 0x41, 0x41, 0x51] : List Nat), alpha c = none) ∧
    ((∀ c ∈ codeE6.take 7, alpha c ≠ none) ∧ (codeE6.take 7).length ≠ 6 ∧ (codeE6.take 7).length ≠ 8) ∧
    (([] : List Nat).length ≠ 6 ∧ ([] : List Nat).length ≠ 8) ∧
    (State.latchChars { running with len := 0, bad := false, cq := [.fin] } codeE6).cq =
      (if true then .fin else .sep) :: [] ∧
    (State.latchChars { running with len := 0, bad := false, cq := [.fin] } codeE6).runState = .run ∧
    (State.latchChars { running with len := 0, bad := false, cq := [.fin] } codeE6).pending = none :=
  ⟨rfl, by decide⟩

/-- At `LEN = 7`, the last that latches, and at `LEN = 15`, where the counter saturates. -/
theorem witness_CharTokenIsLatched :
    State.passes { running with len := 7, cq := [.char 0x41] } ∧ running.runState = .run ∧ running.pending = none ∧
    State.passes { running with len := 15, cq := [.char 0x41] } := ⟨rfl, rfl, rfl, rfl⟩

/-- A block whose code has a record outstanding at `RPT`, and whose terminator was `k`. -/
def reporting (k : Terminator) : State :=
  { running with pending := some (.report 0x10 0xEE), executing := some k }

/-- The last code of a run, a code with more to come, each ending in its terminator's step and after a wait, at once
and not at once; a code that goes on waiting, one whose end is still to come, and one that faults. -/
theorem witness_TerminatorEndsCodeOrRun :
    (arrived codeS3 [.sep]).currentCode = .instr (.gg6 false 0x11D9 0xAD) ∧
    after (exec (.gg6 false 0x11D9 0xAD) { arrived codeS3 [] with executing := some .sep })
      (fun t => (t.runState, t.pending.isSome)) = some (.run, false) ∧
    after (exec (.gg6 false 0x11D9 0xAD) { arrived codeS3 [] with executing := some .fin })
      (fun t => (t.runState, t.pending.isSome)) = some (.run, false) ∧
    ((reporting .sep).passes ∧ (reporting .sep).runState = .run ∧ (reporting .sep).pending = some (.report 0x10 0xEE)) ∧
    (∀ k, let t := (reporting k).resume (.report 0x10 0xEE)
      t.runState = .run ∧ t.pending = none ∧ t.executing = some k ∧ t.paceAnswer = .go ∧ t.cidx = 1) ∧
    (∀ k, let t := State.resume { reporting k with pace := [.go, .rest] } (.report 0x10 0xEE)
      t.runState = .run ∧ t.pending = none ∧ t.executing = some k ∧ t.paceAnswer = .rest) ∧
    State.pending (State.resume { reporting .sep with rptAns := [.wait] } (.report 0x10 0xEE)) =
      some (.report 0x10 0xEE) ∧
    State.runState (State.resume { reporting .sep with base := 0xFFFF8010 } (.report 0x10 0xEE)) = .fault ∧
    (after (step { running with pending := some (.write 0x10 0x00), executing := some .sep, cq := [.fin] })
      (fun t => t.cq)) = some [.fin] :=
  ⟨by decide, by decide, by decide, ⟨rfl, rfl, rfl⟩, fun k => by cases k <;> decide, fun k => by cases k <;> decide,
    by decide, by decide, by decide⟩

theorem witness_WaitingChangesNothing :
    running.passes ∧ running.runState = .run ∧ running.pending = none ∧ running.cq = [] ∧
    State.imgAnswer { running with pending := some (.read 0x10 0 0), imgAns := [.wait] } = .wait ∧
    State.imgAnswer { running with pending := some (.write 0x10 0), imgAns := [.wait] } = .wait ∧
    State.rptAnswer { running with pending := some (.report 0x10 0), rptAns := [.wait] } = .wait ∧
    State.paceAnswer { running with pending := some (.failing 0x10), pace := [.rest] } = .rest ∧
    State.paceAnswer { running with pending := some .advance, pace := [.rest] } = .rest ∧
    (State.paceAnswer { running with pending := some .ending, executing := some .fin, pace := [.rest] } = .rest ∧
      (some Terminator.fin).isSome) :=
  ⟨rfl, rfl, rfl, rfl, rfl, rfl, rfl, rfl, rfl, rfl, rfl⟩

theorem witness_NothingHappensOutsideRun :
    State.reset.runState ≠ .run ∧ State.reset.pending = none ∧ State.reset.passes := ⟨by decide, rfl, rfl⟩

/-- `START` in `IDLE` with a decoder and without one, in `DONE`, in `RUN` and in `FAULT`. -/
theorem witness_StartSeedsOrFaults :
    State.host { State.reset with mode := 0, host := [.write .ctrl 1] } = .write .ctrl 1 :: [] ∧ 1 % 2 = 1 ∧
    (State.reset.runState = .idle ∧ State.mode { State.reset with mode := 0 } = State.reset.params.modeP0 ∧
      State.reset.mode ≠ State.reset.params.modeP0) ∧
    State.runState { running with runState := .done } = .done ∧ running.runState = .run ∧
    faulted.runState = .fault := by decide

theorem witness_ModeWriteRule :
    State.host { State.reset with host := [.write .mode 4] } = .write .mode 4 :: [] ∧
    State.reset.runState = .idle ∧ running.runState = .run ∧ faulted.runState = .fault ∧
    running.params.wf = true ∧ State.host { running with host := [.reset] } = .reset :: [] := by decide

theorem witness_RegisterMapRule :
    State.host { running with host := [.read .base] } = .read .base :: [] ∧
    State.host { running with host := [.write .foff 5] } = .write .foff 5 :: [] ∧
    (State.host { running with host := [.write .ctrl 2] } = .write .ctrl 2 :: [] ∧ 2 % 2 = 0) ∧
    (State.host { running with host := [.write .mode 0] } = .write .mode 0 :: [] ∧ running.runState = .run ∧
      State.reset.runState = .idle) ∧
    (State.host { running with host := [.write .ctrl 3] } = .write .ctrl 3 :: [] ∧ 3 % 2 = 1) := by decide

theorem witness_ResetGivesTheTable :
    State.host { running with host := [.reset] } = .reset :: [] ∧ running.pending = none := by decide

/-- `RESET` under an outstanding write. -/
theorem witness_ResetDuringRunKeepsOldOrNewByte :
    ∃ s t : State, s.image.wf = true ∧ s.runState = .run ∧ s.host = .reset :: [] ∧ step s = .next t ∧
      s.pending = some (.write 0x10 0x00) ∧ s.image.byteAt 0x10 ≠ 0x00 :=
  ⟨{ running with host := [.reset], pending := some (.write 0x10 0x00) }, _, by decide, rfl, rfl, rfl, rfl,
    by decide⟩

/-- R133, R146: `RESET` after a write that failed and before its fault entry: no `Fault` is recorded. -/
theorem test_reset_after_failed_write :
    after (step { running.withFetchWord 24 0xDA5919 with imgAns := [.err], pace := [.rest] })
      (fun t => (t.pending, t.runState, t.trace)) = some (some (.failing 0x11E9), .run, []) ∧
    after (step { running with pending := some (.failing 0x11E9), executing := some .sep, host := [.reset] })
      (fun t => (t.runState, t.pending, t.trace)) = some (.idle, none, []) ∧
    after (step { running with pending := some (.failing 0x11E9), executing := some .sep })
      (fun t => (t.runState, t.cause, t.foff, t.fop, t.trace)) =
      some (.fault, .imageIOError, 0x11E9, .write, [.fault .imageIOError 0]) := by decide

/-- R133, R146: `RESET` after the last code's record has been taken and before its advance, and after its advance and
before `DONE`: the trace ends in the report. -/
theorem test_reset_after_report :
    after (step { reporting .fin with pace := [.rest] }) (fun t => (t.pending, t.cidx, t.trace)) =
      some (some .advance, 0, [.report 0x10 0xEE]) ∧
    after (step { reporting .fin with pace := [.go, .rest] }) (fun t => (t.pending, t.cidx, t.trace)) =
      some (some .ending, 1, [.report 0x10 0xEE]) ∧
    ∀ p ∈ [Pending.advance, .ending],
      after (step { reporting .fin with pending := some p, host := [.reset], trace := [.report 0x10 0xEE] })
        (fun t => (t.runState, t.pending, t.trace)) = some (.idle, none, [.report 0x10 0xEE]) := by decide

/-- A block in `FAULT` whose host tries `START`, and one whose host resets it. -/
theorem witness_FaultIsLeftOnlyByReset :
    ∃ t : State, faulted.runState = .fault ∧
      State.host { faulted with host := [.write .ctrl 1] } = [.write .ctrl 1] ∧
      (.write .ctrl 1 : HostMove) ≠ .reset ∧ step { faulted with host := [.write .ctrl 1] } = .next t ∧
      State.host { faulted with host := [.reset] } = .reset :: [] :=
  ⟨_, rfl, rfl, by decide, rfl, rfl⟩

theorem witness_HostImageOnlyOutsideRun :
    State.host { running with host := [.loadImage (2 ^ 32) []] } = .loadImage (2 ^ 32) [] :: [] ∧
    running.runState = .run ∧ State.reset.runState ≠ .run ∧ 2 ^ 32 ≤ 2 ^ State.reset.params.offw ∧
    2 ^ State.reset.params.offw < 2 ^ 32 + 1 := by decide

theorem witness_StepKeepsInvariant : running.Inv ∧ ∃ t, step running = .next t := ⟨running_inv, _, rfl⟩

/-- States that meet the invariant, one with a host image that is too long. -/
theorem witness_OnlyAHostImageStopsAStep :
    running.Inv ∧ State.Inv { State.reset with host := [.loadImage (2 ^ 32 + 1) []] } ∧
      step { State.reset with host := [.loadImage (2 ^ 32 + 1) []] } = .refused .imageTooLong := by
  refine ⟨running_inv, ?_, rfl⟩
  constructor
  case bounded => constructor <;> first | decide | exact fun _ _ h => nomatch h
  all_goals first | decide | exact fun _ _ h => nomatch h

theorem arrived_inv : (arrived codeS3 [.fin]).Inv := by
  constructor
  case bounded => constructor <;> first | decide | exact fun _ _ h => nomatch h
  all_goals first | decide | exact fun _ _ h => nomatch h

/-- The step of a code that writes, from a state that meets the invariant. -/
theorem witness_StepsStoreOnlyInTheWindow :
    (arrived codeS3 [.fin]).Inv ∧ (∀ len cells, (arrived codeS3 [.fin]).host.headD .pass ≠ .loadImage len cells) ∧
      (after (step (arrived codeS3 [.fin])) (fun t => t.image.byteAt 0x11E9)) = some 0xAD ∧
      ¬ (arrived codeS3 [.fin]).inWindow 0xF ∧ ¬ (arrived codeS3 [.fin]).inWindow 0x8010 :=
  ⟨arrived_inv, fun _ _ => by rw [show (arrived codeS3 [.fin]).host = [] from rfl]; simp, by decide, by unfold State.inWindow; decide, by unfold State.inWindow; decide⟩

theorem witness_ImageIsNeverResized :
    (∀ len cells, running.host.headD .pass ≠ .loadImage len cells) ∧ ∃ t, step running = .next t :=
  ⟨fun _ _ => by rw [show running.host = [] from rfl]; simp, _, rfl⟩

/-- The three cases: nothing, an advance, a seed. -/
theorem witness_IndexMovesOnlyByAdvanceStartReset :
    after (step running) (fun t => t.cidx) = some 0 ∧
    after (step (arrived codeS3 [.sep])) (fun t => (t.cidx, t.base)) = some (1, 0x8010) ∧
    after (step { secondPosition with host := [.reset] }) (fun t => (t.cidx, t.base)) = some (0, 0x10) := by
  decide

theorem witness_ModeChangesOnlyByHost :
    after (step { State.reset with host := [.write .mode 0] }) (fun t => t.mode) = some 0 ∧
    after (step { running with host := [.reset] }) (fun t => t.mode) = some 3 := by decide

theorem witness_TokensAreTakenInOrder :
    after (step (arrived codeS3 [.sep, .fin])) (fun t => t.cq) = some [.fin] ∧
    after (step { running with host := [.offer .fin] }) (fun t => t.cq) = some [.fin] ∧
    (State.host { running with host := [.offer (.char 0xFF)] } = .offer (.char 0xFF) :: [] ∧
      Token.fits running.params (.char 0xFF) = true ∧ Token.fits running.params (.char 0x100) = false) := by decide

theorem witness_TraceOnlyGrows : (after (step (arrived codeS3 [.fin])) (fun t => t.trace.length)) = some 3 := by
  decide

theorem witness_RearrangedHighBitStaysClear :
    running.r[0].getLsbD 3 = false ∧
    after (step (arrived [0x4E, 0x4E, 0x4E, 0x4E, 0x4E, 0x4E] [.fin])) (fun t => t.r[0]) = some 7 := by decide

/-- The two codes of P1, offered to a block that was just reset and given `MODE = 0`. -/
def startOfP1 : State :=
  { State.reset with
    mode := 0
    image := imageWith 0x18010 0 0xEE
    host := [.write .ctrl 1]
    cq := tokensOf [codeS3, [0x54, 0x49, 0x4C, 0x50, 0x47, 0x5A]] }

theorem witness_RunAgreesWithRunFunction :
    [codeS3, [0x54, 0x49, 0x4C, 0x50, 0x47, 0x5A]] ≠ [] ∧ startOfP1.acceptsCommands = true ∧
      startOfP1.quietEnv ∧ startOfP1.host = [.write .ctrl 1] ∧
      startOfP1.cq = tokensOf [codeS3, [0x54, 0x49, 0x4C, 0x50, 0x47, 0x5A]] :=
  ⟨by decide, rfl, ⟨rfl, rfl, rfl, rfl⟩, rfl, rfl⟩

/-- The run of P1 by the rule's own function ends in `DONE` with the trace of section 3; so does the run of one
code by the machine's steps. -/
theorem witness_DoneRunAppliedEveryCode :
    (runCodes Params.default 0 [codeS3, [0x54, 0x49, 0x4C, 0x50, 0x47, 0x5A]] (imageWith 0x18010 0 0xEE)).trace =
      [.start 0, .imgWrite 0x11E9 0xAD, .report 0x11E9 0xAD, .imgWrite 0x9244 0x56, .report 0x9244 0x56,
        .done 2] ∧
    after (Host.Core.run Sys2Proof.core (1 + (tokensOf [codeS3]).length)
      { startOfP1 with cq := tokensOf [codeS3] }) (fun t => (t.runState, t.cidx)) = some (.done, 1) := by decide

end Sys2Proof.Tests
end

section
/-! PROOFS. The host's moves as equations of `step`, the register map, the fields of `STATUS` and `RESET`
(10_state.md R15, R17, R19, R29). -/

namespace Sys2Proof.Machine

/-! ### A step that is a move of the host -/

theorem step_of_reset {s : State} {ms : List HostMove} (h : s.host = .reset :: ms) :
    step s = .next { s with host := ms }.applyReset := by
  simp only [step, State.turn, h, State.hostMove]

theorem step_of_write {s : State} {r : HostReg} {n : Nat} {ms : List HostMove} (h : s.host = .write r n :: ms) :
    step s = .next (State.hostWrite { s with host := ms } r n) := by
  simp only [step, State.turn, h, State.hostMove]

/-- A register holds the same whatever the host does next. -/
@[simp] theorem State.hostRead_withHost (s : State) (ms : List HostMove) (r : HostReg) :
    State.hostRead { s with host := ms } r = s.hostRead r := by
  cases r <;> rfl

theorem step_of_read {s : State} {r : HostReg} {ms : List HostMove} (h : s.host = .read r :: ms) :
    step s = .next { s with host := ms, readLog := s.readLog ++ [(r, s.hostRead r)] } := by
  simp only [step, State.turn, h, State.hostMove, State.hostRead_withHost]

/-! ### The register numbers -/

theorem HostReg.ofNumber_number (r : HostReg) : HostReg.ofNumber r.number = some r := by
  cases r <;> rfl

theorem HostReg.number_of_ofNumber {n : Nat} {r : HostReg} (h : HostReg.ofNumber n = some r) : r.number = n := by
  unfold HostReg.ofNumber at h
  split at h <;> cases h <;> rfl

theorem HostReg.ofNumber_eq_some_iff (r : HostReg) (n : Nat) : HostReg.ofNumber n = some r ↔ r.number = n :=
  ⟨HostReg.number_of_ofNumber, fun h => h ▸ HostReg.ofNumber_number r⟩

/-! ### Register writes -/

theorem State.acceptsCommands_iff (s : State) :
    s.acceptsCommands = true ↔ s.runState = .idle ∨ s.runState = .done := by
  unfold State.acceptsCommands
  cases s.runState <;> simp

theorem State.acceptsCommands_eq_false_iff (s : State) :
    s.acceptsCommands = false ↔ s.runState = .run ∨ s.runState = .fault := by
  unfold State.acceptsCommands
  cases s.runState <;> simp

theorem State.hostWrite_mode_of_accepts {s : State} (h : s.acceptsCommands = true) (n : Nat) :
    s.hostWrite .mode n = { s with mode := n % 2 ^ s.params.modeW } := if_pos h

theorem State.hostWrite_mode_of_not_accepts {s : State} (h : s.acceptsCommands = false) (n : Nat) :
    s.hostWrite .mode n = s := if_neg (Bool.eq_false_iff.mp h)

theorem State.hostWrite_ctrl_of_odd (s : State) {n : Nat} (h : n % 2 = 1) : s.hostWrite .ctrl n = s.start :=
  if_pos (by simp [h])

theorem State.hostWrite_ctrl_of_even (s : State) {n : Nat} (h : n % 2 = 0) : s.hostWrite .ctrl n = s :=
  if_neg (by simp [h])

/-- R19: the writes that the block ignores. -/
theorem State.hostWrite_ignored {s : State} {r : HostReg} {n : Nat}
    (h : r = .status ∨ r = .base ∨ r = .cidx ∨ r = .foff ∨ (r = .ctrl ∧ n % 2 = 0) ∨
      (r = .mode ∧ (s.runState = .run ∨ s.runState = .fault))) : s.hostWrite r n = s := by
  obtain rfl | rfl | rfl | rfl | ⟨rfl, hn⟩ | ⟨rfl, hr⟩ := h
  · rfl
  · rfl
  · rfl
  · rfl
  · exact s.hostWrite_ctrl_of_even hn
  · exact State.hostWrite_mode_of_not_accepts (s.acceptsCommands_eq_false_iff.mpr hr) n

/-- Settles O36, clause by clause, from the equations of `step` for a register access. -/
theorem registerMapRule : Obligations.RegisterMapRule := by
  refine ⟨HostReg.ofNumber_eq_some_iff, ?numbers, ?reads, ?ignored, ?modeWritten, ?ctrlBit0, ?resetValues⟩
  case numbers => exact ⟨rfl, rfl, rfl, rfl, rfl, rfl⟩
  case reads =>
    intro s r ms hs
    exact ⟨s.hostRead r, step_of_read hs, by cases r <;> rfl⟩
  case ignored =>
    intro s r n ms hs hr
    rw [step_of_write hs]
    exact congrArg Host.Outcome.next (State.hostWrite_ignored (s := { s with host := ms }) hr)
  case modeWritten =>
    intro s n ms hs hr
    have ha : State.acceptsCommands { s with host := ms } = true := (State.acceptsCommands_iff _).mpr hr
    rw [step_of_write hs, State.hostWrite_mode_of_accepts ha]
  case ctrlBit0 =>
    intro s n ms hs hn
    rw [step_of_write hs, step_of_write rfl, State.hostWrite_ctrl_of_odd _ hn, State.hostWrite_ctrl_of_odd _ rfl]
  case resetValues => exact ⟨rfl, rfl, rfl, rfl, rfl⟩

/-! ### The fields of `STATUS` -/

/-- R15: `STATUS` as a number, from the numbers of its three fields. -/
theorem State.status_toNat (s : State) :
    s.status.toNat = s.fop.code.toNat * 256 + s.cause.code.toNat * 4 + s.runState.code.toNat := by
  have hlow := s.runState.code.isLt
  have hmid := s.cause.code.isLt
  rw [State.status, BitVec.toNat_append, BitVec.toNat_append, ← Nat.shiftLeft_add_eq_or_of_lt hmid,
    ← Nat.shiftLeft_add_eq_or_of_lt hlow]
  simp only [Nat.shiftLeft_eq]
  omega

/-- Settles O37: the widths of the fields make them the remainders and quotients of `STATUS`. -/
theorem statusFieldsRule : Obligations.StatusFieldsRule := by
  intro s
  have hrun := s.runState.code.isLt
  have hcause := s.cause.code.isLt
  rw [s.status_toNat]
  refine ⟨?runState, ?cause, ?fop⟩
  case runState =>
    calc _ = s.runState.code.toNat := by omega
      _ = _ := by cases s.runState <;> rfl
  case cause =>
    calc _ = s.cause.code.toNat := by omega
      _ = _ := by cases s.cause <;> rfl
  case fop =>
    calc _ = s.fop.code.toNat := by omega
      _ = _ := by cases s.fop <;> rfl

/-! ### `RESET` -/

/-- R133: only an outstanding write lets `RESET` touch the image. -/
theorem State.imageAfterReset_of_no_write {s : State} (h : ∀ off w, s.pending ≠ some (.write off w)) :
    s.imageAfterReset = s.image := by
  obtain he | ⟨off, w, hp, -⟩ := s.imageAfterReset_cases
  · exact he
  · exact absurd hp (h off w)

/-- Settles O38: the step of a `RESET` is `State.applyReset`, which writes the table of R29. -/
theorem resetGivesTheTable : Obligations.ResetGivesTheTable := by
  refine ⟨⟨rfl, rfl, rfl, rfl, rfl, rfl, rfl, rfl, rfl, rfl, rfl, rfl⟩, ?_⟩
  intro s ms hs
  exact ⟨_, step_of_reset hs, rfl, rfl, rfl, rfl, rfl, rfl, rfl, rfl, rfl, rfl, rfl, rfl, rfl, rfl, rfl,
    State.imageAfterReset_of_no_write (s := { s with host := ms })⟩

end Sys2Proof.Machine
end

section
/-! PROOFS. The alphabet lookup, the classification of codes, the rearrangement formulas, and the value and compare
byte (30_encoding.md). -/

namespace Sys2Proof

/-! ### The value and the compare byte -/

/-- The masks of R56 and R57 take the four parts of a byte back out of the nibbles R66 puts them in, whatever the
other parts of those nibbles are. -/
theorem joinByte_of_joinNibbles (v : Byte) (h h' : Bool) (l l' : BitVec 3) :
    joinByte ((joinNibble h (v.extractLsb' 4 3) &&& 0x7#4) ||| (joinNibble (v.getLsbD 7) l &&& 0x8#4))
      ((joinNibble h' (v.extractLsb' 0 3) &&& 0x7#4) ||| (joinNibble (v.getLsbD 3) l' &&& 0x8#4)) = v := by
  apply byte_ext
  · rw [joinByte_bit7, mixed_high, joinNibble_high]
  · rw [joinByte_bits4, mixed_low, joinNibble_low]
  · rw [joinByte_bit3, mixed_high, joinNibble_high]
  · rw [joinByte_bits0, mixed_low, joinNibble_low]

/-- R51, R66: the Decoded Nibble Set of an encoded code is its nibbles in order. -/
theorem nibbleFile_encode (i : Instr) : nibbleFile (encode i) = Machine.latch8 (encodeNibbles i) := by
  simp only [nibbleFile, encode, nibbleAt_symbols, Machine.latch8]

/-- R59: the value of an encoded `GG6` is the instruction's value. -/
theorem value_of_encode_gg6 (x : Bool) (a : Address) (v : Byte) (r : NibbleFile) :
    assembleValue (rearrange6 (nibbleFile (encode (.gg6 x a v))) r) = v := by
  rw [nibbleFile_encode]
  exact joinByte_of_joinNibbles v _ _ _ _

/-- R59: the value of an encoded `GG8` is the instruction's value. -/
theorem value_of_encode_gg8 (x : Bool) (a : Address) (v c : Byte) :
    assembleValue (rearrange8 (nibbleFile (encode (.gg8 x a v c)))) = v := by
  rw [nibbleFile_encode]
  exact joinByte_of_joinNibbles v _ _ _ _

/-- R60: the compare byte of an encoded `GG8` is the instruction's compare byte. -/
theorem compare_of_encode_gg8 (x : Bool) (a : Address) (v c : Byte) :
    assembleCompare (rearrange8 (nibbleFile (encode (.gg8 x a v c)))) = c := by
  rw [nibbleFile_encode]
  exact joinByte_of_joinNibbles c _ _ _ _

/-- Settles O5: a joined byte is a number of two digits, and the code that encodes a byte reaches it. -/
theorem valueAndCompareAssembled : Obligations.ValueAndCompareAssembled := by
  refine ⟨?numbers, ?gg6Reaches, ?gg8Reaches⟩
  case numbers => exact fun r => ⟨joinByte_toNat r[4] r[5], joinByte_toNat r[6] r[7]⟩
  case gg6Reaches => exact fun v => ⟨nibbleFile (encode (.gg6 false 0 v)), value_of_encode_gg6 false 0 v⟩
  case gg8Reaches =>
    exact fun v c => ⟨nibbleFile (encode (.gg8 false 0 v c)),
      value_of_encode_gg8 false 0 v c, compare_of_encode_gg8 false 0 v c⟩

/-! ### The alphabet -/

/-- R50: lookup and symbol are inverse to each other. -/
theorem alpha_eq_some_iff {c : Nat} {n : Nibble} : alpha c = some n ↔ symbol n = c :=
  ⟨symbol_of_alpha, fun h => h ▸ alpha_symbol n⟩

/-- R50: each of the 16 positions of the alphabet holds its symbol. -/
theorem alphabet_getElem? (n : Nibble) : Config.alphabet[n.toNat]? = some (symbol n) := by
  revert n; decide

/-- R50: the characters without a value are those outside the alphabet. -/
theorem alpha_eq_none_iff {c : Nat} : alpha c = none ↔ c ∉ Config.alphabet := by
  simp [alpha, List.forall_mem_ne']

/-- Settles O1: the symbol of a value stands at its position. -/
theorem alphabetLookupIsPosition : Obligations.AlphabetLookupIsPosition := by
  refine ⟨fun c n => ?position, fun _ => alpha_eq_none_iff, rfl⟩
  case position => rw [alpha_eq_some_iff, alphabet_getElem?, Option.some_inj]

/-! ### The classification -/

/-- R53: a character outside the alphabet decides the class before the length. -/
theorem classify_of_illegal {code : List Nat} (h : ∃ c ∈ code, alpha c = none) :
    classify code = .invalidCharacter := by
  have hbad : code.any (fun c => (alpha c).isNone) = true := by simpa using h
  rw [classify, if_pos hbad]

/-- R53: the length decides the class of a code of legal characters. -/
theorem classify_of_legal {code : List Nat} (h : ∀ c ∈ code, alpha c ≠ none) : classify code =
    if code.length = 6 then .gg6 else if code.length = 8 then .gg8 else .invalidLength := by
  have hgood : ¬ code.any (fun c => (alpha c).isNone) = true := by simpa using h
  rw [classify, if_neg hgood]

/-- R53, token form: while `BAD` is clear, `LEN` decides the class. -/
theorem classifyLatched_of_good (len : BitVec 4) : classifyLatched len false =
    if len = 6 then .gg6 else if len = 8 then .gg8 else .invalidLength := rfl

/-- Two tests in a row that cannot both pass: each of the three answers has its own condition. -/
theorem ite_ite_of_exclusive {α : Type} {p q : Prop} [Decidable p] [Decidable q] (hpq : q → ¬ p) (x y z : α) :
    (p → (if p then x else if q then y else z) = x) ∧ (q → (if p then x else if q then y else z) = y) ∧
    (¬ p → ¬ q → (if p then x else if q then y else z) = z) :=
  ⟨fun hp => if_pos hp, fun hq => (if_neg (hpq hq)).trans (if_pos hq), fun hp hq => (if_neg hp).trans (if_neg hq)⟩

/-- Settles O2: illegal characters come first, then the length decides; the token form is the same three tests. -/
theorem classificationInRuleOrder : Obligations.ClassificationInRuleOrder := by
  refine ⟨fun _ => classify_of_illegal, fun code h => ?legal, fun len => ⟨rfl, ?latched⟩⟩
  case legal =>
    rw [classify_of_legal h]
    exact ite_ite_of_exclusive (by omega) _ _ _
  case latched =>
    rw [classifyLatched_of_good]
    exact ite_ite_of_exclusive (by rintro rfl; decide) _ _ _

/-! ### The rearrangement -/

/-- Settles O4: the formulas are those of `rearrange6` and `rearrange8`, and the mask clears bit 3 of `r[0]`. -/
theorem rearrangementFormulas : Obligations.RearrangementFormulas := fun d _ =>
  ⟨rfl, rfl, rfl, rfl, rfl, rfl, masked_high d[3], rfl, rfl, rfl, rfl, rfl, rfl, rfl, rfl, masked_high d[3]⟩

end Sys2Proof
end

section
/-! PROOFS. The sequencer: the `CHAR` token and the write of `MODE` (42_sequencer.md R87, R89). -/

namespace Sys2Proof.Machine

/-! ### The `CHAR` token -/

theorem step_of_char {s : State} {c : Nat} {ts : List Token} (hp : s.passes) (hr : s.runState = .run)
    (ho : s.pending = none) (hq : s.cq = .char c :: ts) :
    step s = .next (State.latchChar { s with host := s.host.tail, cq := ts } c) := by
  rw [step_of_passes hp]
  simp only [State.blockStep, State.runStep, State.acceptToken, hr, ho, hq]

/-- R89: the one register of `d` that a `CHAR` token may change is `d[LEN]`; there is none where `LEN` is 8 or
more. -/
theorem getElem_nextNibbles (d : NibbleFile) (len : BitVec 4) (c : Nat) (k : Fin 8) :
    (nextNibbles d len c)[k] =
      if (alpha c).isSome ∧ k.val = len.toNat then (alpha c).getD 0 else d[k] := by
  unfold nextNibbles
  cases alpha c with
  | none => simp
  | some n => simp [Vector.getElem_setIfInBounds, eq_comm]

/-- Settles O30: the step is `State.latchChar`, and `nextNibbles` is the new `d`. -/
theorem charTokenIsLatched : Obligations.CharTokenIsLatched := fun s c _ hp hr ho hq =>
  ⟨nextNibbles s.d s.len c, step_of_char hp hr ho hq, getElem_nextNibbles s.d s.len c⟩

/-! ### The write of `MODE` -/

/-- R14, R29: in a block with a legal choice of parameters the reset value of `MODE` selects no decoder. -/
theorem State.applyReset_mode_ne_modeP0 {s : State} (h : s.params.wf = true) :
    s.applyReset.mode ≠ s.applyReset.params.modeP0 := by
  simp only [Params.wf, Bool.and_eq_true, decide_eq_true_eq] at h
  obtain ⟨⟨-, hmode⟩, -⟩ := h
  rw [State.applyReset_mode, State.applyReset_params]
  omega

/-- Settles O35: the write by whether the block takes commands, the reset value by `MODE_P0 + 1 < 2 ^ MODE_W`. -/
theorem modeWriteRule : Obligations.ModeWriteRule := by
  refine ⟨fun s n ms hs => ⟨fun hr => ?stored, fun hr => ?ignored⟩, fun s ms hw hs => ?resetValue⟩
  case stored =>
    have ha : State.acceptsCommands { s with host := ms } = true := (State.acceptsCommands_iff _).mpr hr
    rw [step_of_write hs, State.hostWrite_mode_of_accepts ha]
  case ignored =>
    have ha : State.acceptsCommands { s with host := ms } = false := (State.acceptsCommands_eq_false_iff _).mpr hr
    rw [step_of_write hs, State.hostWrite_mode_of_not_accepts ha]
  case resetValue => exact ⟨_, step_of_reset hs, State.applyReset_mode_ne_modeP0 (s := { s with host := ms }) hw⟩

end Sys2Proof.Machine
end

section
/-! PROOFS. The faults of an illegal code, and `FAULT` until the next `RESET` (60_exceptions.md R111, R112, R119). -/

namespace Sys2Proof.Machine

/-! ### What `LEN` and `BAD` say of the characters latched -/

theorem nextLen_toNat (len : BitVec 4) : (nextLen len).toNat = min (len.toNat + 1) 15 := by
  simp only [nextLen, BitVec.toNat_ofNat]
  omega

/-- R89: `LEN` counts the characters, saturating at 15. -/
theorem State.latchChars_len_toNat (s : State) (code : List Nat) :
    (s.latchChars code).len.toNat = min (s.len.toNat + code.length) 15 := by
  induction code generalizing s with
  | nil =>
    have hlt := s.len.isLt
    simp only [State.latchChars, List.length_nil]
    omega
  | cons c cs ih =>
    simp only [State.latchChars, ih, latchChar_len, nextLen_toNat, List.length_cons]
    omega

/-- R89: `BAD` is set by a character outside the alphabet and stays set. -/
theorem State.latchChars_bad (s : State) (code : List Nat) :
    (s.latchChars code).bad = (s.bad || code.any fun c => (alpha c).isNone) := by
  induction code generalizing s with
  | nil => simp [State.latchChars]
  | cons c cs ih => simp [State.latchChars, ih, nextBad, Bool.or_assoc]

/-- R91: the test of `LEN` is the test of the length, for a length that `LEN` does not saturate at. -/
theorem State.latchChars_len_eq_iff {s : State} (h : s.len = 0) (code : List Nat) {n : Nat} (hn : n < 15) :
    (s.latchChars code).len = BitVec.ofNat 4 n ↔ code.length = n := by
  have hlen := s.latchChars_len_toNat code
  have hzero : s.len.toNat = 0 := by simp [h]
  rw [← BitVec.toNat_inj, BitVec.toNat_ofNat]
  omega

/-- R53, R91: a code latched from `LEN = 0` and `BAD` clear is classified as the whole code is. -/
theorem State.classifyLatched_latchChars {s : State} (hl : s.len = 0) (hb : s.bad = false) (code : List Nat) :
    classifyLatched (s.latchChars code).len (s.latchChars code).bad = classify code := by
  have h6 : (s.latchChars code).len = 6 ↔ code.length = 6 :=
    State.latchChars_len_eq_iff hl code (n := 6) (by decide)
  have h8 : (s.latchChars code).len = 8 ↔ code.length = 8 :=
    State.latchChars_len_eq_iff hl code (n := 8) (by decide)
  rw [classifyLatched, classify, s.latchChars_bad code, hb, Bool.false_or]
  simp only [h6, h8]

/-- R91: what has arrived is decoded by the class of the whole code. -/
theorem State.currentCode_latchChars {s : State} (hl : s.len = 0) (hb : s.bad = false) (code : List Nat) :
    (s.latchChars code).currentCode = decodeAs (classify code) (s.latchChars code).d := by
  rw [State.currentCode, decodeLatched, State.classifyLatched_latchChars hl hb]

/-! ### The terminator of an illegal code -/

/-- R90, R91: at a terminator the code that has arrived is executed, then ended. -/
theorem step_of_terminator {s : State} (hp : s.passes) (hr : s.runState = .run) (ho : s.pending = none)
    {k : Terminator} {ts : List Token} (hq : s.cq = k.token :: ts) :
    step s = andThen (s.accepted k ts).executeCode State.finishCode := by
  rw [step_of_passes hp, State.accepted]
  cases k <;> simp only [State.blockStep, State.runStep, hr, ho, hq] <;> rfl

/-- R111, R112, R117: an answer of the decoder that is no instruction is the cause of a fault, entered with
nothing but the terminator taken. -/
theorem step_of_illegal {s : State} (hp : s.passes) (hr : s.runState = .run) (ho : s.pending = none)
    {k : Terminator} {ts : List Token} (hq : s.cq = k.token :: ts) {c : Cause}
    (hc : (s.currentCode = .invalidCharacter ∧ c = .invalidCharacter) ∨
      (s.currentCode = .invalidLength ∧ c = .invalidLength)) :
    step s = .next { s with
      host := s.host.tail, cq := ts, runState := .fault, cause := c, executing := none,
      trace := s.trace ++ [.fault c s.cidx] } := by
  have hcode : (s.accepted k ts).currentCode = s.currentCode := rfl
  have hraise : (s.accepted k ts).executeCode = .next ((s.accepted k ts).raise c) := by
    rcases hc with ⟨hd, rfl⟩ | ⟨hd, rfl⟩ <;> rw [State.executeCode, hcode, hd]
  rw [step_of_terminator hp hr ho hq, hraise, ho]
  rfl

/-- Settles O29: `LEN` and `BAD` classify the latched code as the whole code, and its class is the cause. -/
theorem illegalCodeFaultsWithoutEffect : Obligations.IllegalCodeFaultsWithoutEffect := by
  intro s0 code ts fin s hp hr ho hq
  have hcode : s.currentCode = decodeAs (classify code) s.d :=
    State.currentCode_latchChars (s := { s0 with len := 0, bad := false }) rfl rfl code
  have hterm : s.cq = Terminator.token (if fin then .fin else .sep) :: ts := by
    rw [hq]; cases fin <;> rfl
  refine ⟨fun hbad => ?character, fun hgood h6 h8 => ?length⟩
  case character =>
    rw [classify_of_illegal hbad] at hcode
    exact step_of_illegal hp hr ho hterm (.inl ⟨hcode, rfl⟩)
  case length =>
    rw [classify_of_legal hgood, if_neg h6, if_neg h8] at hcode
    exact step_of_illegal hp hr ho hterm (.inr ⟨hcode, rfl⟩)

/-! ### `FAULT` -/

/-- R14, R19, R85: in `FAULT` every register write is ignored. -/
theorem State.hostWrite_of_fault {s : State} (h : s.runState = .fault) (r : HostReg) (n : Nat) :
    s.hostWrite r n = s := by
  have ha : s.acceptsCommands = false := s.acceptsCommands_eq_false_iff.mpr (.inr h)
  rcases s.hostWrite_cases r n with he | ⟨-, hx, -⟩ | ⟨-, hx, -⟩ | ⟨-, hx, -⟩
  · exact he
  all_goals simp [ha] at hx

/-- R119: in `FAULT` a step that is no `RESET` uses one move of the host, and may add to the read log and to the
offered tokens and put the host's new image in place. -/
theorem step_of_fault_cases {s t : State} (hf : s.runState = .fault) (hn : s.host.headD .pass ≠ .reset)
    (h : step s = .next t) :
    ∃ log tokens image,
      t = { s with host := s.host.tail, readLog := log, cq := tokens, image := image } ∧
      ((∀ len cells, s.host.headD .pass ≠ .loadImage len cells) → image = s.image) := by
  have hrun : s.runState ≠ .run := by simp [hf]
  cases step_cases h with
  | waits => exact ⟨_, _, _, rfl, fun _ => rfl⟩
  | resumes _ _ hr => exact absurd hr hrun
  | char _ _ _ hr => exact absurd hr hrun
  | illegal _ _ _ hr => exact absurd hr hrun
  | executes _ _ _ hr => exact absurd hr hrun
  | reset ms hh => simp [hh] at hn
  | write r n ms hh =>
    rw [State.hostWrite_of_fault (s := { s with host := ms }) hf, hh]
    exact ⟨_, _, _, rfl, fun _ => rfl⟩
  | read r ms hh => rw [hh]; exact ⟨_, _, _, rfl, fun _ => rfl⟩
  | offer k ms hh => rw [hh]; exact ⟨_, _, _, rfl, fun _ => rfl⟩
  | loadImage len cells ms hh =>
    rw [hh]
    exact ⟨_, _, _, rfl, fun hno => absurd rfl (hno len cells)⟩

/-- Settles O40: the frame of a step in `FAULT`, and the table that `State.applyReset` writes. -/
theorem faultIsLeftOnlyByReset : Obligations.FaultIsLeftOnlyByReset := by
  refine ⟨fun s t hf hn h => ?stays, fun s ms _ hs => ?reset⟩
  case stays =>
    obtain ⟨log, tokens, image, rfl, himage⟩ := step_of_fault_cases hf hn h
    exact ⟨hf, rfl, rfl, rfl, rfl, rfl, rfl, rfl, rfl, himage⟩
  case reset => exact ⟨_, step_of_reset hs, rfl, rfl, rfl, rfl, rfl, rfl, rfl, rfl, rfl⟩

end Sys2Proof.Machine
end

section
/-! PROOFS. A `RESET` during a run: the byte under the outstanding write, and every other byte
(70_reset_and_hazards.md R133). -/

namespace Sys2Proof.Machine

/-! ### The image after `RESET` -/

@[simp] theorem State.imageAfterReset_len (s : State) : s.imageAfterReset.len = s.image.len := by
  obtain he | ⟨off, w, -, -, he⟩ := s.imageAfterReset_cases
  · rw [he]
  · rw [he, Memory.setByte_len]

/-- R133: `RESET` keeps every byte that no outstanding write is for. -/
theorem State.imageAfterReset_byteAt_other {s : State} {b : Nat}
    (h : ∀ off w, s.pending = some (.write off w) → b ≠ off) :
    s.imageAfterReset.byteAt b = s.image.byteAt b := by
  obtain he | ⟨off, w, hp, -, he⟩ := s.imageAfterReset_cases
  · rw [he]
  · rw [he, Memory.byteAt_setByte_other (h off w hp)]

/-- R133 (decision D16): the outstanding write has landed or not, and nothing between. -/
theorem State.imageAfterReset_byteAt_written {s : State} (hwf : s.image.wf = true) {off : Nat} {w : Byte}
    (h : s.pending = some (.write off w)) :
    s.imageAfterReset.byteAt off = s.image.byteAt off ∨ s.imageAfterReset.byteAt off = w := by
  obtain he | ⟨off', w', hp, -, he⟩ := s.imageAfterReset_cases
  · exact .inl (by rw [he])
  · obtain ⟨rfl, rfl⟩ : off = off' ∧ w = w' := by simpa [h] using hp
    exact .inr (by rw [he, Memory.byteAt_setByte_same hwf])

/-- Settles O39: the step is `State.applyReset`, whose image is `State.imageAfterReset`. -/
theorem resetDuringRunKeepsOldOrNewByte : Obligations.ResetDuringRunKeepsOldOrNewByte := by
  intro s t ms hwf _ hs h
  obtain rfl : { s with host := ms }.applyReset = t := Host.Outcome.next.inj ((step_of_reset hs).symm.trans h)
  exact ⟨rfl, rfl, rfl, rfl, State.imageAfterReset_len { s with host := ms },
    fun _ => State.imageAfterReset_byteAt_other (s := { s with host := ms }),
    fun _ _ => State.imageAfterReset_byteAt_written (s := { s with host := ms }) hwf⟩

end Sys2Proof.Machine
end

section
/-! PROOFS. The fields of a code, bit by bit: decode and encode, the table words, the bound on the address
(30_encoding.md R54 to R66). -/

namespace Sys2Proof

/-! ### The address as a number -/

/-- R58: the four nibbles of the address are its digits to base 16. -/
theorem assembleAddress_toNat (r : NibbleFile) :
    (assembleAddress r).toNat = r[0].toNat * 4096 + r[1].toNat * 256 + r[2].toNat * 16 + r[3].toNat := by
  have hor : (assembleAddress r).toNat =
      r[0].toNat <<< 12 ||| (r[1].toNat <<< 8 ||| (r[2].toNat <<< 4 ||| r[3].toNat)) := by
    simp only [assembleAddress, BitVec.toNat_or, BitVec.toNat_shiftLeft, BitVec.toNat_setWidth, Nat.or_assoc]
    simp only [Nat.shiftLeft_eq]
    congr 1 <;> [skip; congr 1 <;> [skip; congr 1]] <;> omega
  rw [hor, ← Nat.shiftLeft_add_eq_or_of_lt (i := 4) (by omega), ← Nat.shiftLeft_add_eq_or_of_lt (i := 8),
    ← Nat.shiftLeft_add_eq_or_of_lt (i := 12)] <;> simp only [Nat.shiftLeft_eq] <;> omega

/-- R56, R58: the mask of `r[0]` bounds the address. -/
theorem assembleAddress_le {r : NibbleFile} {n : Nibble} (h : r[0] = n &&& 0x7#4) :
    (assembleAddress r).toNat ≤ 0x7FFF := by
  have h0 : r[0].toNat ≤ 7 := by rw [h, BitVec.toNat_and]; exact Nat.and_le_right
  rw [assembleAddress_toNat]
  omega

/-- Settles O6: `r[0]` is masked to three bits, and the nibbles are digits to base 16. -/
theorem addressAssembledBelow8000 : Obligations.AddressAssembledBelow8000 :=
  ⟨assembleAddress_toNat, fun d _ => assembleAddress_le (n := d[3]) rfl,
    fun d => assembleAddress_le (n := d[3]) rfl⟩

/-! ### The fields of a Decoded Nibble Set -/

/-- The parts of an address that the nibbles of a code carry (R56 to R58; the address of both forms). -/
structure CarriesAddress (d : NibbleFile) (a : Address) : Prop where
  bit15 : a.getLsbD 15 = false
  bits12 : a.extractLsb' 12 3 = d[3].extractLsb' 0 3
  bit11 : a.getLsbD 11 = d[4].getLsbD 3
  bits8 : a.extractLsb' 8 3 = d[5].extractLsb' 0 3
  bit7 : a.getLsbD 7 = d[1].getLsbD 3
  bits4 : a.extractLsb' 4 3 = d[2].extractLsb' 0 3
  bit3 : a.getLsbD 3 = d[3].getLsbD 3
  bits0 : a.extractLsb' 0 3 = d[4].extractLsb' 0 3

/-- The parts of a byte, by the nibbles that carry them: `m0`, `m1` the low parts, `h7`, `h3` the high bits. -/
structure CarriesByte (h7 m1 h3 m0 : Nibble) (v : Byte) : Prop where
  bit7 : v.getLsbD 7 = h7.getLsbD 3
  bits4 : v.extractLsb' 4 3 = m1.extractLsb' 0 3
  bit3 : v.getLsbD 3 = h3.getLsbD 3
  bits0 : v.extractLsb' 0 3 = m0.extractLsb' 0 3

/-- R57, R58: the address that a Decoded Nibble Set stands for. -/
theorem carriesAddress_rearrange8 (d : NibbleFile) : CarriesAddress d (assembleAddress (rearrange8 d)) where
  bit15 := (assembleAddress_bit15 _).trans (masked_high d[3])
  bits12 := (assembleAddress_bits12 _).trans (masked_low d[3])
  bit11 := (assembleAddress_bit11 _).trans (mixed_high d[5] d[4])
  bits8 := (assembleAddress_bits8 _).trans (mixed_low d[5] d[4])
  bit7 := (assembleAddress_bit7 _).trans (mixed_high d[2] d[1])
  bits4 := (assembleAddress_bits4 _).trans (mixed_low d[2] d[1])
  bit3 := (assembleAddress_bit3 _).trans (mixed_high d[4] d[3])
  bits0 := (assembleAddress_bits0 _).trans (mixed_low d[4] d[3])

/-- R56, R57: the two forms have the same address. -/
theorem assembleAddress_rearrange6 (d r : NibbleFile) :
    assembleAddress (rearrange6 d r) = assembleAddress (rearrange8 d) := rfl

/-- A byte joined from two mixed nibbles (R56, R57, R59, R60). -/
theorem carriesByte_joinByte (h7 m1 h3 m0 : Nibble) :
    CarriesByte h7 m1 h3 m0
      (joinByte ((m1 &&& 0x7#4) ||| (h7 &&& 0x8#4)) ((m0 &&& 0x7#4) ||| (h3 &&& 0x8#4))) where
  bit7 := (joinByte_bit7 _ _).trans (mixed_high _ _)
  bits4 := (joinByte_bits4 _ _).trans (mixed_low _ _)
  bit3 := (joinByte_bit3 _ _).trans (mixed_high _ _)
  bits0 := (joinByte_bits0 _ _).trans (mixed_low _ _)

/-- R59: the value of a `GG6` code, whose low nibble takes its high bit from `d[5]`. -/
theorem carriesByte_value6 (d r : NibbleFile) :
    CarriesByte d[0] d[1] d[5] d[0] (assembleValue (rearrange6 d r)) := carriesByte_joinByte _ _ _ _

/-- R59 (90_conflicts.md C1): the value of a `GG8` code, whose low nibble takes its high bit from `d[7]`. -/
theorem carriesByte_value8 (d : NibbleFile) :
    CarriesByte d[0] d[1] d[7] d[0] (assembleValue (rearrange8 d)) := carriesByte_joinByte _ _ _ _

/-- R60: the compare byte of a `GG8` code. -/
theorem carriesByte_compare8 (d : NibbleFile) :
    CarriesByte d[6] d[7] d[5] d[6] (assembleCompare (rearrange8 d)) := carriesByte_joinByte _ _ _ _

/-! ### The address from its parts -/

/-- R58: an address fits exactly when its bit 15 is clear. -/
theorem addressFits_iff_bit15 (a : Address) : addressFits a = true ↔ a.getLsbD 15 = false := by
  have hmsb : a.getLsbD 15 = decide (2 ^ 15 ≤ a.toNat) := a.msb_eq_decide
  simp only [addressFits, hmsb, decide_eq_true_eq, decide_eq_false_iff_not]
  omega

/-- Bit `k + j` of a word is bit `j` of the three bits from `k` on. -/
theorem getLsbD_of_extractLsb' {n : Nat} {a b : BitVec n} {k : Nat} (h : a.extractLsb' k 3 = b.extractLsb' k 3) :
    ∀ j < 3, a.getLsbD (k + j) = b.getLsbD (k + j) := by
  intro j hj
  have hbit := congrArg (fun x => BitVec.getLsbD x j) h
  simpa [BitVec.getLsbD_extractLsb', hj] using hbit

/-- The nibbles of a code carry the whole address. -/
theorem CarriesAddress.unique {d : NibbleFile} {a b : Address} (ha : CarriesAddress d a) (hb : CarriesAddress d b) :
    a = b := by
  have h12 := getLsbD_of_extractLsb' (ha.bits12.trans hb.bits12.symm)
  have h8 := getLsbD_of_extractLsb' (ha.bits8.trans hb.bits8.symm)
  have h4 := getLsbD_of_extractLsb' (ha.bits4.trans hb.bits4.symm)
  have h0 := getLsbD_of_extractLsb' (ha.bits0.trans hb.bits0.symm)
  apply BitVec.eq_of_getLsbD_eq
  intro i hi
  have hcases : i = 15 ∨ (12 ≤ i ∧ i < 15) ∨ i = 11 ∨ (8 ≤ i ∧ i < 11) ∨ i = 7 ∨ (4 ≤ i ∧ i < 7) ∨ i = 3 ∨
      i < 3 := by omega
  obtain rfl | ⟨hl, hu⟩ | rfl | ⟨hl, hu⟩ | rfl | ⟨hl, hu⟩ | rfl | hu := hcases
  · exact ha.bit15.trans hb.bit15.symm
  · simpa [Nat.add_sub_cancel' hl] using h12 (i - 12) (by omega)
  · exact ha.bit11.trans hb.bit11.symm
  · simpa [Nat.add_sub_cancel' hl] using h8 (i - 8) (by omega)
  · exact ha.bit7.trans hb.bit7.symm
  · simpa [Nat.add_sub_cancel' hl] using h4 (i - 4) (by omega)
  · exact ha.bit3.trans hb.bit3.symm
  · simpa using h0 i hu

/-! ### Decoding an encoded instruction -/

/-- R66: the nibbles of an encoded instruction carry its address. -/
theorem carriesAddress_encodeNibbles (i : Instr) (h : i.wf = true) :
    CarriesAddress (Machine.latch8 (encodeNibbles i)) (Machine.addressOf i) where
  bit15 := (addressFits_iff_bit15 _).mp (by cases i <;> exact h)
  bits12 := by cases i <;> exact (joinNibble_low _ _).symm
  bit11 := by cases i <;> exact (joinNibble_high _ _).symm
  bits8 := by cases i <;> exact (joinNibble_low _ _).symm
  bit7 := by cases i <;> exact (joinNibble_high _ _).symm
  bits4 := by cases i <;> exact (joinNibble_low _ _).symm
  bit3 := by cases i <;> exact (joinNibble_high _ _).symm
  bits0 := by cases i <;> exact (joinNibble_low _ _).symm

/-- R58, R66: the decoded address of an encoded instruction is the instruction's. -/
theorem address_of_encode {i : Instr} (h : i.wf = true) :
    assembleAddress (rearrange8 (nibbleFile (encode i))) = Machine.addressOf i := by
  rw [nibbleFile_encode]
  exact (carriesAddress_rearrange8 _).unique (carriesAddress_encodeNibbles i h)

/-- R62, R66: the ignored bit stands in the third nibble. -/
theorem ignoredBit_of_encode (i : Instr) : ignoredBit (nibbleFile (encode i)) = match i with
    | .gg6 x _ _ => x
    | .gg8 x _ _ _ => x := by
  rw [nibbleFile_encode]
  cases i <;> exact joinNibble_high _ _

/-- Settles O9: the class is that of the length, and each field comes back from the nibbles that carry it. -/
theorem decodeOfEncodeIsIdentity : Obligations.DecodeOfEncodeIsIdentity := by
  intro i hwf
  have haddr := address_of_encode hwf
  have hx := ignoredBit_of_encode i
  cases i with
  | gg6 x a v =>
    have hclass : classify (encode (.gg6 x a v)) = .gg6 := Laws.EncodedIsLegal.gg6 x a v
    rw [decodeCode, hclass, decodeAs, decode6, hx, assembleAddress_rearrange6, haddr, value_of_encode_gg6]
    rfl
  | gg8 x a v c =>
    have hclass : classify (encode (.gg8 x a v c)) = .gg8 := Laws.EncodedIsLegal.gg8 x a v c
    rw [decodeCode, hclass, decodeAs, decode8, hx, haddr, value_of_encode_gg8, compare_of_encode_gg8]
    rfl

/-! ### Encoding a decoded instruction -/

/-- R50, R53: a code of alphabet characters is the symbols of its nibbles. -/
theorem eq_map_symbol_of_legal {code : List Nat} (h : ∀ c ∈ code, alpha c ≠ none) :
    ∃ ns : List Nibble, code = ns.map symbol := by
  induction code with
  | nil => exact ⟨[], rfl⟩
  | cons c cs ih =>
    obtain ⟨n, hn⟩ := Option.ne_none_iff_exists'.mp (h c (by simp))
    obtain ⟨ns, rfl⟩ := ih fun c' hc' => h c' (by simp [hc'])
    exact ⟨n :: ns, by rw [List.map_cons, symbol_of_alpha hn]⟩

/-- R51: the Decoded Nibble Set of a code of symbols. -/
theorem nibbleFile_symbols (ns : List Nibble) : nibbleFile (ns.map symbol) = Machine.latch8 ns := by
  simp only [nibbleFile, nibbleAt_symbols, Machine.latch8]

/-- R67: the decoder on a code of symbols. -/
theorem decodeCode_symbols (ns : List Nibble) : decodeCode (ns.map symbol) =
    if ns.length = 6 then .instr (decode6 (Machine.latch8 ns))
    else if ns.length = 8 then .instr (decode8 (Machine.latch8 ns)) else .invalidLength := by
  rw [decodeCode, classify_symbols, nibbleFile_symbols]
  split_ifs <;> rfl

/-- R64: a code that decodes is the symbols of six nibbles or of eight. -/
theorem decodeCode_eq_instr {code : List Nat} {i : Instr} (h : decodeCode code = .instr i) :
    ∃ ns : List Nibble, code = ns.map symbol ∧
      ((ns.length = 6 ∧ i = decode6 (Machine.latch8 ns)) ∨
        (ns.length = 8 ∧ i = decode8 (Machine.latch8 ns))) := by
  have hlegal : ∀ c ∈ code, alpha c ≠ none := by
    intro c hc hbad
    rw [decodeCode, classify_of_illegal ⟨c, hc, hbad⟩] at h
    cases h
  obtain ⟨ns, rfl⟩ := eq_map_symbol_of_legal hlegal
  refine ⟨ns, rfl, ?_⟩
  rw [decodeCode_symbols] at h
  split_ifs at h with h6 h8
  · exact .inl ⟨h6, (Decoded.instr.inj h).symm⟩
  · exact .inr ⟨h8, (Decoded.instr.inj h).symm⟩

/-- R58, R64: what the decoder answers is well formed. -/
theorem wf_decode6 (d : NibbleFile) : (decode6 d).wf = true :=
  (addressFits_iff_bit15 _).mpr (carriesAddress_rearrange8 d).bit15

theorem wf_decode8 (d : NibbleFile) : (decode8 d).wf = true :=
  (addressFits_iff_bit15 _).mpr (carriesAddress_rearrange8 d).bit15

/-- R66: the inverse mapping takes the fields of six nibbles back to the nibbles. -/
theorem encodeNibbles_decode6 (d : NibbleFile) :
    encodeNibbles (decode6 d) = [d[0], d[1], d[2], d[3], d[4], d[5]] := by
  have ha := carriesAddress_rearrange8 d
  have hv := carriesByte_value6 d d
  simp only [decode6, encodeNibbles, encodeHead, assembleAddress_rearrange6, ignoredBit, ha.bit7, ha.bits4, ha.bit3,
    ha.bits12, ha.bit11, ha.bits0, ha.bits8, hv.bit7, hv.bits0, hv.bits4, hv.bit3, joinNibble_eta, List.cons_append,
    List.nil_append]

/-- R66: the same for eight nibbles. -/
theorem encodeNibbles_decode8 (d : NibbleFile) :
    encodeNibbles (decode8 d) = [d[0], d[1], d[2], d[3], d[4], d[5], d[6], d[7]] := by
  have ha := carriesAddress_rearrange8 d
  have hv := carriesByte_value8 d
  have hc := carriesByte_compare8 d
  simp only [decode8, encodeNibbles, encodeHead, ignoredBit, ha.bit7, ha.bits4, ha.bit3,
    ha.bits12, ha.bit11, ha.bits0, ha.bits8, hv.bit7, hv.bits0, hv.bits4, hv.bit3, hc.bit7, hc.bits0, hc.bits4,
    hc.bit3, joinNibble_eta, List.cons_append, List.nil_append]

/-- Settles O10: a code that decodes is the symbols of its nibbles, and the fields carry every bit of them. -/
theorem encodeOfDecodeIsIdentity : Obligations.EncodeOfDecodeIsIdentity := by
  intro code i h
  obtain ⟨ns, rfl, ⟨hlen, rfl⟩ | ⟨hlen, rfl⟩⟩ := decodeCode_eq_instr h
  · match ns, hlen with
    | [n0, n1, n2, n3, n4, n5], _ => exact ⟨by rw [encode, encodeNibbles_decode6]; rfl, wf_decode6 _⟩
  · match ns, hlen with
    | [n0, n1, n2, n3, n4, n5, n6, n7], _ => exact ⟨by rw [encode, encodeNibbles_decode8]; rfl, wf_decode8 _⟩

/-! ### The words of the table -/

/-- R54, R55: nibble `k` of a word as a field of the word. -/
theorem tableNibble_eq_extractLsb' {n : Nat} (w : BitVec n) (k : Nat) :
    tableNibble n w.toNat k = w.extractLsb' (n - 4 - 4 * k) 4 := rfl

theorem tableNibble_high {n : Nat} (w : BitVec n) (k : Nat) :
    (tableNibble n w.toNat k).getLsbD 3 = w.getLsbD (n - 4 - 4 * k + 3) := by
  rw [tableNibble_eq_extractLsb', BitVec.getLsbD_extractLsb']
  simp

theorem tableNibble_low {n : Nat} (w : BitVec n) (k : Nat) :
    (tableNibble n w.toNat k).extractLsb' 0 3 = w.extractLsb' (n - 4 - 4 * k) 3 := by
  apply BitVec.eq_of_getLsbD_eq
  intro j hj
  rw [tableNibble_eq_extractLsb', BitVec.getLsbD_extractLsb', BitVec.getLsbD_extractLsb', BitVec.getLsbD_extractLsb']
  simp [hj, show j < 4 by omega]

/-- The Decoded Nibble Set of a word of `n` bits. -/
def tableNibbles (n w : Nat) : NibbleFile := Machine.latch8 ((List.range (n / 4)).map (tableNibble n w))

/-- R54: a 24-bit word decodes to the `GG6` code of its six nibbles. -/
theorem decodeTableWord_24 (w : Nat) : decodeTableWord 24 w = some (decode6 (tableNibbles 24 w)) := by
  have hcode : tableCode 24 w = ((List.range (24 / 4)).map (tableNibble 24 w)).map symbol := by
    rw [List.map_map]; rfl
  rw [decodeTableWord, hcode, decodeCode_symbols]
  rfl

/-- R55: a 32-bit word decodes to the `GG8` code of its eight nibbles. -/
theorem decodeTableWord_32 (w : Nat) : decodeTableWord 32 w = some (decode8 (tableNibbles 32 w)) := by
  have hcode : tableCode 32 w = ((List.range (32 / 4)).map (tableNibble 32 w)).map symbol := by
    rw [List.map_map]; rfl
  rw [decodeTableWord, hcode, decodeCode_symbols]
  rfl

/-- Settles O7: each field bit by the nibble that carries it, each nibble by its place in the word. -/
theorem fieldBitsOfW6 : Obligations.FieldBitsOfW6 := by
  intro w
  have ha := carriesAddress_rearrange8 (tableNibbles 24 w.toNat)
  have hv := carriesByte_value6 (tableNibbles 24 w.toNat) (tableNibbles 24 w.toNat)
  have high := tableNibble_high w
  have low := tableNibble_low w
  have hx : ignoredBit (tableNibbles 24 w.toNat) = w.getLsbD 15 := high 2
  exact ⟨_, _, by rw [decodeTableWord_24, decode6, hx, assembleAddress_rearrange6],
    ha.bit15, ha.bits12.trans (low 3), ha.bit11.trans (high 4), ha.bits8.trans (low 5), ha.bit7.trans (high 1),
    ha.bits4.trans (low 2), ha.bit3.trans (high 3), ha.bits0.trans (low 4),
    hv.bit7.trans (high 0), hv.bits4.trans (low 1), hv.bit3.trans (high 5), hv.bits0.trans (low 0)⟩

/-- Settles O8: the same for the eight nibbles, with the compare byte. -/
theorem fieldBitsOfW8 : Obligations.FieldBitsOfW8 := by
  intro w
  have ha := carriesAddress_rearrange8 (tableNibbles 32 w.toNat)
  have hv := carriesByte_value8 (tableNibbles 32 w.toNat)
  have hc := carriesByte_compare8 (tableNibbles 32 w.toNat)
  have high := tableNibble_high w
  have low := tableNibble_low w
  have hx : ignoredBit (tableNibbles 32 w.toNat) = w.getLsbD 23 := high 2
  exact ⟨_, _, _, by rw [decodeTableWord_32, decode8, hx],
    ha.bit15, ha.bits12.trans (low 3), ha.bit11.trans (high 4), ha.bits8.trans (low 5), ha.bit7.trans (high 1),
    ha.bits4.trans (low 2), ha.bit3.trans (high 3), ha.bits0.trans (low 4),
    hv.bit7.trans (high 0), hv.bits4.trans (low 1), hv.bit3.trans (high 7), hv.bits0.trans (low 0),
    hc.bit7.trans (high 6), hc.bits4.trans (low 7), hc.bit3.trans (high 5), hc.bits0.trans (low 6)⟩

/-- Settles O3: the seven words are decoded by their nibbles. -/
theorem sampleWordsDecode : Obligations.SampleWordsDecode := by
  simp only [Obligations.SampleWordsDecode, decodeTableWord_24, decodeTableWord_32]
  decide

end Sys2Proof
end

section
/-! PROOFS. A code latched character by character decodes as the whole code (10_state.md R21, 42_sequencer.md R91). -/

namespace Sys2Proof.Machine

/-- R89: the registers of `d` from `LEN` on take the nibbles of the characters in order, as long as there are
registers left. -/
theorem State.latchChars_symbols_d (s : State) (ns : List Nibble) (h : s.len.toNat + ns.length ≤ 8) (k : Fin 8) :
    (s.latchChars (ns.map symbol)).d[k] =
      if s.len.toNat ≤ k.val then ns.getD (k.val - s.len.toNat) s.d[k] else s.d[k] := by
  induction ns generalizing s with
  | nil => simp [State.latchChars]
  | cons n ns ih =>
    have hlen : (nextLen s.len).toNat = s.len.toNat + 1 := by
      rw [nextLen_toNat]; simp only [List.length_cons] at h; omega
    have hd := getElem_nextNibbles s.d s.len (symbol n) k
    simp only [alpha_symbol, Option.isSome_some, true_and, Option.getD_some] at hd
    have hrest := ih (s.latchChar (symbol n)) (by
      rw [State.latchChar_len, hlen]; simp only [List.length_cons] at h; omega)
    rw [State.latchChar_len, hlen, State.latchChar_d, hd] at hrest
    rw [List.map_cons, State.latchChars, hrest]
    rcases Nat.lt_trichotomy k.val s.len.toNat with hk | hk | hk
    · rw [if_neg (by omega), if_neg (by omega), if_neg (by omega)]
    · simp [hk]
    · rw [if_pos (by omega), if_neg (by omega), if_pos (by omega),
        show k.val - s.len.toNat = k.val - (s.len.toNat + 1) + 1 by omega, List.getD_cons_succ]

/-- R89: from `LEN = 0` the register `k` holds nibble `k` of the code. -/
theorem State.latchChars_symbols_d_of_zero {s : State} (hl : s.len = 0) {ns : List Nibble} (h8 : ns.length ≤ 8)
    (k : Fin 8) (hk : k.val < ns.length) : (s.latchChars (ns.map symbol)).d[k] = (latch8 ns)[k] := by
  have hzero : s.len.toNat = 0 := by simp [hl]
  have hreg : (latch8 ns)[k] = ns.getD k.val 0 := by fin_cases k <;> rfl
  rw [State.latchChars_symbols_d s ns (by omega) k, hreg, hzero, if_pos (Nat.zero_le _), Nat.sub_zero]
  simp [hk]

/-- R56, R58, R59: a `GG6` code is decoded from the first six registers of `d`. -/
theorem decode6_congr {d e : NibbleFile} (h : ∀ k : Fin 8, k.val < 6 → d[k] = e[k]) : decode6 d = decode6 e := by
  have hd : ∀ d : NibbleFile, decode6 d = decode6 #v[d[0], d[1], d[2], d[3], d[4], d[5], 0, 0] := fun _ => rfl
  have h0 : d[0] = e[0] := h 0 (by decide)
  have h1 : d[1] = e[1] := h 1 (by decide)
  have h2 : d[2] = e[2] := h 2 (by decide)
  have h3 : d[3] = e[3] := h 3 (by decide)
  have h4 : d[4] = e[4] := h 4 (by decide)
  have h5 : d[5] = e[5] := h 5 (by decide)
  rw [hd d, hd e, h0, h1, h2, h3, h4, h5]

/-- R21, R91 (decision D21): what has been latched from `LEN = 0` and `BAD` clear decodes as the whole code. -/
theorem State.currentCode_latchChars_eq {s : State} (hl : s.len = 0) (hb : s.bad = false) (code : List Nat) :
    (s.latchChars code).currentCode = decodeCode code := by
  rw [State.currentCode_latchChars hl hb, decodeCode]
  by_cases hlegal : ∀ c ∈ code, alpha c ≠ none
  case neg =>
    have hbad : ∃ c ∈ code, alpha c = none := by simpa using hlegal
    rw [classify_of_illegal hbad]
    rfl
  case pos =>
    obtain ⟨ns, rfl⟩ := eq_map_symbol_of_legal hlegal
    rw [classify_symbols, nibbleFile_symbols]
    split_ifs with h6 h8
    · exact congrArg Decoded.instr (decode6_congr fun k hk =>
        State.latchChars_symbols_d_of_zero hl (by omega) k (by omega))
    · have hd : (s.latchChars (ns.map symbol)).d = latch8 ns :=
        Vector.ext fun k hk => State.latchChars_symbols_d_of_zero hl (by omega) ⟨k, hk⟩ (by omega)
      rw [hd]
    · rfl

/-- Settles O11: `LEN` and `BAD` classify the code, and `d` holds the nibbles the class reads. -/
theorem latchedCodeDecodesAsWholeCode : Obligations.LatchedCodeDecodesAsWholeCode :=
  fun _ code => State.currentCode_latchChars_eq rfl rfl code

end Sys2Proof.Machine
end

section
/-! PROOFS. The invariant of the machine: the reset state meets it and every step keeps it (10_state.md sections 3
and 4, 20_memory.md section 6, 42_sequencer.md section 7). -/

namespace Sys2Proof.Machine

/-! ### The invariant while nothing is outstanding -/

/-- Outside `RUN` nothing is outstanding and no code is in execution. -/
theorem State.Inv.pending_none {s : State} (h : s.Inv) (hr : s.runState ≠ .run) : s.pending = none := by
  by_contra hp
  exact hr (h.pending_run (Option.isSome_iff_ne_none.mpr hp))

theorem State.Inv.executing_none {s : State} (h : s.Inv) (hp : s.pending = none) : s.executing = none := by
  have he := h.executing_iff
  rw [hp] at he
  exact Option.isSome_eq_false_iff.mp he |> Option.isNone_iff_eq_none.mp

/-- What the invariant asks of a state in which nothing is outstanding. -/
theorem State.Inv.of_pending_none {s : State} (params_wf : s.params.wf = true) (image_wf : s.image.wf = true)
    (base : s.base < 2 ^ s.params.offw) (cidx : s.cidx < 2 ^ s.params.cidxw) (foff : s.foff < 2 ^ s.params.offw)
    (mode : s.mode < 2 ^ s.params.modeW) (image : s.image.len ≤ 2 ^ s.params.offw)
    (tokens : ∀ k ∈ s.cq, k.fits s.params = true)
    (base_eq : s.base = s.params.headerSize + s.cidx * s.params.bankSize)
    (cause_iff : s.cause = .none ↔ s.runState ≠ .fault) (mode_run : s.runState = .run → s.mode = s.params.modeP0)
    (pending : s.pending = none) (executing : s.executing = none) : s.Inv where
  params_wf := params_wf
  image_wf := image_wf
  bounded := ⟨base, cidx, foff, mode, image, fun p off hp => by simp [pending] at hp, tokens⟩
  base_eq := base_eq
  cause_iff := cause_iff
  mode_run := mode_run
  pending_run hp := by simp [pending] at hp
  executing_iff := by rw [pending, executing]; rfl
  pending_window p off hp := by simp [pending] at hp

/-- The fields of which the invariant says nothing, and other tokens that fit the port. -/
theorem State.Inv.withFree {s : State} (h : s.Inv) {cq : List Token} (hcq : ∀ k ∈ cq, k.fits s.params = true)
    (d r : NibbleFile) (len : BitVec 4) (bad : Bool) (host : List HostMove) (log : List (HostReg × Nat)) :
    State.Inv { s with d := d, r := r, len := len, bad := bad, cq := cq, host := host, readLog := log } where
  params_wf := h.params_wf
  image_wf := h.image_wf
  bounded := ⟨h.bounded.base, h.bounded.cidx, h.bounded.foff, h.bounded.mode, h.bounded.image, h.bounded.pending,
    hcq⟩
  base_eq := h.base_eq
  cause_iff := h.cause_iff
  mode_run := h.mode_run
  pending_run := h.pending_run
  executing_iff := h.executing_iff
  pending_window := h.pending_window

/-- The host's list is free. -/
theorem State.Inv.withHost {s : State} (h : s.Inv) (host : List HostMove) : State.Inv { s with host := host } :=
  h.withFree h.bounded.tokens s.d s.r s.len s.bad host s.readLog

/-- Settles O42: every clause is a fact about the values of R29 and of logs 3 to 5. -/
theorem resetMeetsInvariant : Obligations.ResetMeetsInvariant :=
  State.Inv.of_pending_none (by decide) rfl (by decide) (by decide) (by decide) (by decide) (by decide) (by decide)
    (by decide) (by decide) (by decide) rfl rfl

/-! ### The invariant inside a code -/

/-- The invariant while the code of an accepted terminator is executed: as `State.Inv`, but that the code is in
execution as long as the block runs, whether or not it stands at something. -/
structure State.InCode (s : State) : Prop where
  params_wf : s.params.wf = true
  image_wf : s.image.wf = true
  bounded : s.Bounded
  base_eq : s.base = s.params.headerSize + s.cidx * s.params.bankSize
  cause_iff : s.cause = .none ↔ s.runState ≠ .fault
  mode_run : s.runState = .run → s.mode = s.params.modeP0
  /-- R90, R117: the code is in execution, or has ended in a fault. -/
  status : (s.runState = .run ∧ s.executing.isSome) ∨
    (s.runState = .fault ∧ s.executing = none ∧ s.pending = none)
  pending_window : ∀ p off, s.pending = some p → p.off? = some off → s.inWindow off

/-- R90: a terminator is accepted where nothing is outstanding. -/
theorem State.Inv.accepted {s : State} (h : s.Inv) (hr : s.runState = .run) (hp : s.pending = none) (k : Terminator)
    {t : Token} {ts : List Token} (hq : s.cq = t :: ts) : (s.accepted k ts).InCode where
  params_wf := h.params_wf
  image_wf := h.image_wf
  bounded := ⟨h.bounded.base, h.bounded.cidx, h.bounded.foff, h.bounded.mode, h.bounded.image, h.bounded.pending,
    fun k' hk => h.bounded.tokens k' (by rw [hq]; exact List.mem_cons_of_mem _ hk)⟩
  base_eq := h.base_eq
  cause_iff := h.cause_iff
  mode_run := h.mode_run
  status := .inl ⟨hr, rfl⟩
  pending_window p off hp' := by simp [State.accepted, hp] at hp'

/-- R27: a code that stands at something is in execution. -/
theorem State.Inv.inCode {s : State} (h : s.Inv) {p : Pending} (hp : s.pending = some p) : s.InCode where
  params_wf := h.params_wf
  image_wf := h.image_wf
  bounded := h.bounded
  base_eq := h.base_eq
  cause_iff := h.cause_iff
  mode_run := h.mode_run
  status := .inl ⟨h.pending_run (by simp [hp]), by simp [h.executing_iff, hp]⟩
  pending_window := h.pending_window

theorem State.InCode.withNibbles {s : State} (h : s.InCode) (d r : NibbleFile) :
    State.InCode { s with d := d, r := r } where
  params_wf := h.params_wf
  image_wf := h.image_wf
  bounded := ⟨h.bounded.base, h.bounded.cidx, h.bounded.foff, h.bounded.mode, h.bounded.image, h.bounded.pending,
    h.bounded.tokens⟩
  base_eq := h.base_eq
  cause_iff := h.cause_iff
  mode_run := h.mode_run
  status := h.status
  pending_window := h.pending_window

/-- R70, R75: so it is with the nibble files of the code. -/
theorem State.InCode.latched {s : State} (h : s.InCode) (i : Instr) : (s.latched i).InCode := by
  rw [State.latched_eq]
  exact h.withNibbles _ _

/-- R117: a fault ends the code. -/
theorem State.InCode.raise {s : State} (h : s.InCode) {c : Cause} (hc : c ≠ .none) : (s.raise c).InCode where
  params_wf := h.params_wf
  image_wf := h.image_wf
  bounded := ⟨h.bounded.base, h.bounded.cidx, h.bounded.foff, h.bounded.mode, h.bounded.image,
    fun p off hp => by simp at hp, h.bounded.tokens⟩
  base_eq := h.base_eq
  cause_iff := by simp [hc]
  mode_run hr := by simp at hr
  status := .inr ⟨rfl, rfl, rfl⟩
  pending_window p off hp := by simp at hp

/-- The widths hold in everything the access phase at an offset of `OFFW` bits can do. -/
theorem CodeFrame.bounded {off : Nat} {s t : State} (f : CodeFrame off s t) (h : s.Bounded)
    (hoff : off < 2 ^ s.params.offw) : t.Bounded where
  base := by
    rw [f.params]
    obtain ⟨hb, -⟩ | ⟨-, -, hb, -⟩ := f.index
    · rw [hb]; exact h.base
    · exact hb
  cidx := by
    rw [f.params]
    obtain ⟨-, hc⟩ | ⟨-, -, -, hc, -⟩ := f.index
    · rw [hc]; exact h.cidx
    · exact hc
  foff := by
    rw [f.params]
    obtain ⟨-, -, -, hf, -⟩ | ⟨-, -, -, -, ⟨-, hf⟩ | ⟨-, hf⟩⟩ := f.status
    · rw [hf]; exact h.foff
    · rw [hf]; exact hoff
    · rw [hf]; exact h.foff
  mode := by rw [f.params, f.mode]; exact h.mode
  image := by rw [f.params, f.image_len]; exact h.image
  pending p o hp ho := by
    obtain ⟨hat, -⟩ := f.outstanding p hp
    rw [f.params, hat o ho]; exact hoff
  tokens := by rw [f.params, f.cq]; exact h.tokens

/-- The access phase of a code keeps the invariant inside a code. -/
theorem CodeFrame.inCode {off : Nat} {s t : State} (f : CodeFrame off s t) (h : s.InCode) (hr : s.runState = .run)
    (hw : s.inWindow off) (hoff : off < 2 ^ s.params.offw) : t.InCode where
  params_wf := by rw [f.params]; exact h.params_wf
  image_wf := f.image_wf h.image_wf
  bounded := f.bounded h.bounded hoff
  base_eq := by
    rw [f.params]
    obtain ⟨hb, hc⟩ | ⟨hb, hc, -⟩ := f.index
    · rw [hb, hc]; exact h.base_eq
    · rw [hb, hc, h.base_eq]; ring
  cause_iff := by
    obtain ⟨hs, hc, -⟩ | ⟨hs, hc, -⟩ := f.status
    · rw [hs, hc]; exact h.cause_iff
    · simp [hs, hc]
  mode_run hrun := by
    rw [f.mode, f.params]; exact h.mode_run hr
  status := by
    obtain ⟨hs, -, -, -, he⟩ | ⟨hs, -, he, hp, -⟩ := f.status
    · rw [hs, he]
      exact h.status.imp id fun ⟨hf, _⟩ => absurd (hr.symm.trans hf) (by decide)
    · exact .inr ⟨hs, he, hp⟩
  pending_window p o hp ho := by
    obtain ⟨hat, hb, -⟩ := f.outstanding p hp
    rw [State.inWindow, hb, hat o ho]
    exact hw

/-- R38, R46: the Final Offset of a well-formed code lies in the window. -/
theorem State.inWindow_of_finalOffset {s : State} {a : Address} {fo : Nat} (ha : addressFits a = true)
    (h : s.finalOffset a = some fo) : s.inWindow fo := by
  obtain ⟨rfl, -⟩ := State.finalOffset_some.mp h
  have hle : a.toNat ≤ 0x7FFF := by simpa [addressFits] using ha
  exact ⟨by omega, by omega⟩

/-- R64, R91: what has arrived decodes to well-formed instructions only. -/
theorem State.wf_of_currentCode {s : State} {i : Instr} (h : s.currentCode = .instr i) : i.wf = true := by
  rw [State.currentCode, decodeLatched] at h
  cases hk : classifyLatched s.len s.bad with
  | invalidCharacter => rw [hk] at h; cases h
  | invalidLength => rw [hk] at h; cases h
  | gg6 => rw [hk] at h; cases h; exact wf_decode6 s.d
  | gg8 => rw [hk] at h; cases h; exact wf_decode8 s.d

/-- A well-formed instruction has an address that fits. -/
theorem addressFits_of_wf {i : Instr} (h : i.wf = true) : addressFits (addressOf i) = true := by
  cases i <;> exact h

/-- R70, R75: an execution keeps the invariant inside a code. -/
theorem State.InCode.exec {s t : State} (h : s.InCode) (hr : s.runState = .run) {i : Instr} (hi : i.wf = true)
    (he : exec i s = .next t) : t.InCode := by
  have hlatch := h.latched i
  obtain ⟨fo, hfo, -, f⟩ | ⟨-, rfl⟩ := exec_cases he
  · obtain ⟨-, hlt⟩ := State.finalOffset_some.mp hfo
    have hw := State.inWindow_of_finalOffset (addressFits_of_wf hi) hfo
    rw [State.latched_eq] at f hlatch
    exact f.inCode hlatch hr hw hlt
  · exact hlatch.raise (by decide)

/-- R27: a code that stands at something meets the invariant between two steps. -/
theorem State.InCode.inv_of_pending {s : State} (h : s.InCode) {p : Pending} (hp : s.pending = some p) : s.Inv := by
  obtain ⟨hr, hx⟩ | ⟨-, -, hn⟩ := h.status
  · exact {
      params_wf := h.params_wf, image_wf := h.image_wf, bounded := h.bounded, base_eq := h.base_eq
      cause_iff := h.cause_iff, mode_run := h.mode_run, pending_run := fun _ => hr
      executing_iff := by rw [hx, hp]; rfl
      pending_window := h.pending_window }
  · rw [hn] at hp; cases hp

/-- R90, R98, R117: where nothing is outstanding the code may end, whatever that does to `STATE`, `LEN`, `BAD` and the
trace; the cause has to be none outside `FAULT`. -/
theorem State.InCode.inv_of_ended {s : State} (h : s.InCode) {rs : RunState} (hrs : s.cause = .none ↔ rs ≠ .fault)
    (hrun : rs = .run → s.runState = .run) (len : BitVec 4) (bad : Bool) (pace : List Pace) (trace : List Event) :
    State.Inv { s with
      runState := rs, len := len, bad := bad, pace := pace, trace := trace, executing := none, pending := none } :=
  .of_pending_none h.params_wf h.image_wf h.bounded.base h.bounded.cidx h.bounded.foff h.bounded.mode h.bounded.image
    h.bounded.tokens h.base_eq hrs (fun hr => h.mode_run (hrun hr)) rfl rfl

/-- R90, R146: the end of a code may stay to come. -/
theorem State.InCode.withEnding {s : State} (h : s.InCode) (hr : s.runState = .run) (hx : s.executing.isSome)
    (pace : List Pace) : State.InCode { s with pace := pace, pending := some .ending } where
  params_wf := h.params_wf
  image_wf := h.image_wf
  bounded := ⟨h.bounded.base, h.bounded.cidx, h.bounded.foff, h.bounded.mode, h.bounded.image,
    fun p off hp ho => (by cases hp; cases ho), h.bounded.tokens⟩
  base_eq := h.base_eq
  cause_iff := h.cause_iff
  mode_run := h.mode_run
  status := .inl ⟨hr, hx⟩
  pending_window p off hp ho := by cases hp; cases ho

/-- R90, R98: the end of the code restores the invariant of the machine. -/
theorem State.InCode.finishCode {s : State} (h : s.InCode) : s.finishCode.Inv := by
  obtain ⟨hr, hx⟩ | ⟨hf, hx, hp⟩ := h.status
  case inr =>
    have hended := h.inv_of_ended h.cause_iff (rs := s.runState) id s.len s.bad s.pace s.trace
    rw [State.finishCode_of_idle (.inl (by simp [hf]))]
    rwa [← hx, ← hp] at hended
  case inl =>
    have hcause : s.cause = .none := h.cause_iff.mpr (by simp [hr])
    obtain ⟨k, hk⟩ := Option.isSome_iff_exists.mp hx
    cases hp : s.pending with
    | some p =>
      rw [State.finishCode_of_idle (.inr (by simp [hp]))]
      exact h.inv_of_pending hp
    | none =>
      cases hpace : s.paceAnswer with
      | rest =>
        rw [State.finishCode_of_rest hr hp hk hpace]
        exact (h.withEnding hr hx s.pace.tail).inv_of_pending rfl
      | go =>
        rw [State.finishCode_of_go hr hp hk hpace]
        cases k with
        | sep =>
          have hended := h.inv_of_ended h.cause_iff (rs := s.runState) id 0 false s.pace.tail s.trace
          rwa [← hp] at hended
        | fin =>
          have hended := h.inv_of_ended (rs := .done) (by simp [hcause]) (by simp) s.len s.bad s.pace.tail
            (s.trace ++ [.done s.cidx])
          rwa [← hp] at hended

/-- R27: looking again at what is outstanding keeps the invariant inside a code; an internal step stands at no
offset, and there `BASE` serves as one of the window. -/
theorem State.Inv.resume {s : State} (h : s.Inv) {p : Pending} (hp : s.pending = some p) : (s.resume p).InCode := by
  have hr : s.runState = .run := h.pending_run (by simp [hp])
  cases ho : p.off? with
  | some off =>
    have f := s.resume_frame p (off := off) fun o h' => by rw [ho] at h'; exact (Option.some.inj h').symm
    exact f.inCode (h.inCode hp) hr (h.pending_window p off hp ho) (h.bounded.pending p off hp ho)
  | none =>
    have f := s.resume_frame p (off := s.base) fun o h' => by rw [ho] at h'; cases h'
    exact f.inCode (h.inCode hp) hr ⟨le_rfl, by omega⟩ h.bounded.base

/-! ### The invariant and the host -/

/-- R6, R13, R14, R50: what a legal choice of parameters says. -/
theorem params_wf_iff (p : Params) : p.wf = true ↔ p.headerSize < 2 ^ p.offw ∧ p.modeP0 + 1 < 2 ^ p.modeW ∧
    ∀ c ∈ Config.alphabet, c < 2 ^ p.charW := by
  simp only [Params.wf, Bool.and_eq_true, decide_eq_true_eq, List.all_eq_true, and_assoc]

/-- R24: what stands on the port after an offer fits it. -/
theorem Token.fits_onPort (p : Params) (k : Token) : (k.onPort p).fits p = true := by
  cases k with
  | char c => simpa [Token.onPort, Token.fits] using Nat.mod_lt c (Nat.two_pow_pos p.charW)
  | sep => rfl
  | fin => rfl

/-- R133: the image after `RESET` is canonical. -/
theorem State.imageAfterReset_wf {s : State} (h : s.image.wf = true) : s.imageAfterReset.wf = true := by
  obtain he | ⟨off, w, -, hlt, he⟩ := s.imageAfterReset_cases
  · rwa [he]
  · rw [he]; exact Memory.wf_setByte h hlt w

/-- R29: the state after `RESET` meets the invariant. -/
theorem State.Inv.applyReset {s : State} (h : s.Inv) : s.applyReset.Inv := by
  obtain ⟨hheader, -, -⟩ := (params_wf_iff s.params).mp h.params_wf
  have hmode : 2 ^ s.params.modeW - 1 < 2 ^ s.params.modeW := by have := Nat.two_pow_pos s.params.modeW; omega
  have hlen : s.imageAfterReset.len ≤ 2 ^ s.params.offw := by rw [State.imageAfterReset_len]; exact h.bounded.image
  exact .of_pending_none h.params_wf (State.imageAfterReset_wf h.image_wf) hheader (Nat.two_pow_pos _)
    (Nat.two_pow_pos _) hmode hlen (by simp) (by simp) (by simp) (by simp) rfl rfl

/-- R14, R85 to R88: a register write keeps the invariant. -/
theorem State.Inv.hostWrite {s : State} (h : s.Inv) (r : HostReg) (n : Nat) : (s.hostWrite r n).Inv := by
  obtain ⟨hheader, -, -⟩ := (params_wf_iff s.params).mp h.params_wf
  have hcidx : 0 < 2 ^ s.params.cidxw := Nat.two_pow_pos _
  have hquiet : s.acceptsCommands = true → s.runState ≠ .run ∧ s.pending = none ∧ s.executing = none := by
    intro ha
    have hr : s.runState ≠ .run := by rcases s.acceptsCommands_iff.mp ha with hr | hr <;> simp [hr]
    have hp := h.pending_none hr
    exact ⟨hr, hp, h.executing_none hp⟩
  obtain he | ⟨-, ha, he⟩ | ⟨-, ha, hm, he⟩ | ⟨-, ha, hm, he⟩ := s.hostWrite_cases r n
  · rwa [he]
  · obtain ⟨hr, hp, hx⟩ := hquiet ha
    rw [he]
    exact .of_pending_none h.params_wf h.image_wf h.bounded.base h.bounded.cidx h.bounded.foff
      (Nat.mod_lt _ (Nat.two_pow_pos _)) h.bounded.image h.bounded.tokens h.base_eq h.cause_iff
      (fun hrun => absurd hrun hr) hp hx
  · obtain ⟨-, hp, hx⟩ := hquiet ha
    rw [he]
    exact .of_pending_none h.params_wf h.image_wf hheader hcidx h.bounded.foff h.bounded.mode h.bounded.image
      h.bounded.tokens (by simp) (by simp) (fun _ => hm) hp hx
  · rw [he]
    exact .of_pending_none h.params_wf h.image_wf hheader hcidx h.bounded.foff h.bounded.mode h.bounded.image
      h.bounded.tokens (by simp) (by simp) (by simp) rfl rfl

/-- R136, R143: a new image outside a run keeps the invariant. -/
theorem State.Inv.loadImage {s : State} (h : s.Inv) (hr : s.runState ≠ .run) {len : Nat}
    (hl : len ≤ 2 ^ s.params.offw) (cells : List Host.Cell) :
    State.Inv { s with image := Memory.ofCells len cells } :=
  have hp := h.pending_none hr
  .of_pending_none h.params_wf (Memory.wf_ofCells len cells) h.bounded.base h.bounded.cidx h.bounded.foff
    h.bounded.mode ((Memory.ofCells_len len cells).trans_le hl) h.bounded.tokens h.base_eq h.cause_iff h.mode_run hp
    (h.executing_none hp)

/-! ### Every step -/

/-- Settles O43: the steps of a code go through `State.InCode`, the host's moves seed or keep what is outstanding. -/
theorem stepKeepsInvariant : Obligations.StepKeepsInvariant := by
  intro s t h hstep
  cases step_cases hstep with
  | waits => exact h.withHost _
  | resumes _ p _ ho => exact ((h.withHost s.host.tail).resume ho).finishCode
  | char _ c ts _ _ hq =>
    have hts : ∀ k ∈ ts, k.fits s.params = true := fun k hk =>
      h.bounded.tokens k (by rw [hq]; exact List.mem_cons_of_mem _ hk)
    exact h.withFree hts _ s.r _ _ _ s.readLog
  | illegal _ k ts hr ho hq c hc =>
    have hne : c ≠ .none := by rcases hc with ⟨-, rfl⟩ | ⟨-, rfl⟩ <;> decide
    have hraised := ((h.accepted hr ho k hq).raise hne).finishCode
    rwa [State.finishCode_raise] at hraised
  | executes _ k ts hr ho hq i hi u hu =>
    exact ((h.accepted hr ho k hq).exec hr (State.wf_of_currentCode hi) hu).finishCode
  | reset ms => exact (h.withHost ms).applyReset
  | write r n ms => exact (h.withHost ms).hostWrite r n
  | read r ms => exact h.withFree h.bounded.tokens s.d s.r s.len s.bad ms _
  | offer k ms =>
    refine h.withFree (fun k' hk => ?_) s.d s.r s.len s.bad ms s.readLog
    obtain hk | hk := List.mem_append.mp hk
    · exact h.bounded.tokens k' hk
    · rw [List.mem_singleton.mp hk]; exact Token.fits_onPort s.params k
  | loadImage len cells ms _ hr hl => exact (h.withHost ms).loadImage hr hl cells

end Sys2Proof.Machine
end

section
/-! PROOFS. The shared operations of a code: what waits goes on later as if taken at once, the image requests and the
advance on every path (20_memory.md section 4, 42_sequencer.md R92, R96, 10_state.md R27). -/

namespace Sys2Proof.Machine

/-! ### No operation reads what is outstanding -/

theorem State.advanceDue_withPending (s : State) (p : Option Pending) :
    State.advanceDue { s with pending := p } = s.advanceDue := by
  cases h : s.paceAnswer
  · rw [State.advanceDue_of_go h, State.advanceDue_of_go (s := { s with pending := p }) h]
  · rw [State.advanceDue_of_rest h, State.advanceDue_of_rest (s := { s with pending := p }) h]

theorem State.writeFaultDue_withPending (s : State) (p : Option Pending) (off : Nat) :
    State.writeFaultDue { s with pending := p } off = s.writeFaultDue off := by
  cases h : s.paceAnswer
  · rw [State.writeFaultDue_of_go h, State.writeFaultDue_of_go (s := { s with pending := p }) h]
    rfl
  · rw [State.writeFaultDue_of_rest h, State.writeFaultDue_of_rest (s := { s with pending := p }) h]

theorem State.sendReport_withPending (s : State) (p : Option Pending) (off : Nat) (w : Byte) :
    State.sendReport { s with pending := p } off w = s.sendReport off w := by
  cases h : s.rptAnswer
  · rw [State.sendReport_of_take h, State.sendReport_of_take (s := { s with pending := p }) h]
    exact State.advanceDue_withPending { s with rptAns := s.rptAns.tail, trace := s.trace ++ [.report off w] } p
  · rw [State.sendReport_of_wait h, State.sendReport_of_wait (s := { s with pending := p }) h]

theorem State.writeFailed_withPending (s : State) (p : Option Pending) (off : Nat) :
    State.writeFailed { s with pending := p } off = s.writeFailed off := by
  unfold State.writeFailed
  split_ifs
  · exact State.writeFaultDue_withPending { s with
      image := s.image.setByte off (Config.failedWriteByte s.fresh), fresh := s.fresh + 1 } p off
  · exact State.writeFaultDue_withPending s p off

/-- An answer of the image device is `wait`, a failure, or a success inside the image (R34, R40; log 29). -/
theorem State.imgAnswer_cases (s : State) (off : Nat) :
    s.imgAnswer = .wait ∨ (s.imgAnswer = .err ∨ (s.imgAnswer = .ok ∧ s.image.len ≤ off)) ∨
      (s.imgAnswer = .ok ∧ off < s.image.len) := by
  have hlen := Nat.lt_or_ge off s.image.len
  cases s.imgAnswer <;> simp [hlen.symm]

theorem State.memWrite_withPending (s : State) (p : Option Pending) (off : Nat) (w : Byte) :
    State.memWrite { s with pending := p } off w = s.memWrite off w := by
  obtain h | h | ⟨h, hl⟩ := s.imgAnswer_cases off
  · rw [State.memWrite_of_wait h, State.memWrite_of_wait (s := { s with pending := p }) h]
  · rw [State.memWrite_of_fails w h, State.memWrite_of_fails (s := { s with pending := p }) w h]
    exact State.writeFailed_withPending { s with imgAns := s.imgAns.tail } p off
  · rw [State.memWrite_of_ok w h hl, State.memWrite_of_ok (s := { s with pending := p }) w h hl]
    exact State.sendReport_withPending { s with
      imgAns := s.imgAns.tail, image := s.image.setByte off w, trace := s.trace ++ [.imgWrite off w] } p off w

theorem State.memReadThenWrite_withPending (s : State) (p : Option Pending) (off : Nat) (v c : Byte) :
    State.memReadThenWrite { s with pending := p } off v c = s.memReadThenWrite off v c := by
  obtain h | h | ⟨h, hl⟩ := s.imgAnswer_cases off
  · rw [State.memRead_of_wait h, State.memRead_of_wait (s := { s with pending := p }) h]
  · rw [State.memRead_of_fails v c h, State.memRead_of_fails (s := { s with pending := p }) v c h]
    rfl
  · rw [State.memRead_of_ok v c h hl, State.memRead_of_ok (s := { s with pending := p }) v c h hl]
    exact State.memWrite_withPending { s with
      imgAns := s.imgAns.tail, trace := s.trace ++ [.imgRead off (s.image.byteAt off)] } p off _

/-! ### What waits goes on -/

theorem State.imgAnswer_of_cons {s : State} {a : ImgAnswer} {as : List ImgAnswer} (h : s.imgAns = a :: as) :
    s.imgAnswer = a := by
  rw [State.imgAnswer, h, List.headD_cons]

theorem State.rptAnswer_of_cons {s : State} {a : RptAnswer} {as : List RptAnswer} (h : s.rptAns = a :: as) :
    s.rptAnswer = a := by
  rw [State.rptAnswer, h, List.headD_cons]

theorem State.paceAnswer_of_cons {s : State} {a : Pace} {as : List Pace} (h : s.pace = a :: as) :
    s.paceAnswer = a := by
  rw [State.paceAnswer, h, List.headD_cons]

/-- Settles O18: each operation that waits leaves only what is outstanding, which the operation does not read. -/
theorem outstandingRequestGoesOnUnchanged : Obligations.OutstandingRequestGoesOnUnchanged := by
  refine ⟨fun s as off v c h => ?read, fun s as off w h => ?write, fun s as off w h => ?report,
    fun s ps h => ?advance, fun s ps off h => ?failing⟩
  case read =>
    rw [State.memRead_of_wait (State.imgAnswer_of_cons h), h]
    exact ⟨rfl, rfl, State.memReadThenWrite_withPending { s with imgAns := as } _ off v c⟩
  case write =>
    rw [State.memWrite_of_wait (State.imgAnswer_of_cons h), h]
    exact ⟨rfl, rfl, State.memWrite_withPending { s with imgAns := as } _ off w⟩
  case report =>
    rw [State.sendReport_of_wait (State.rptAnswer_of_cons h), h]
    exact ⟨rfl, rfl, State.sendReport_withPending { s with rptAns := as } _ off w⟩
  case advance =>
    rw [State.advanceDue_of_rest (State.paceAnswer_of_cons h), h]
    exact ⟨rfl, rfl, rfl, rfl, State.advanceDue_withPending { s with pace := ps } _⟩
  case failing =>
    rw [State.writeFaultDue_of_rest (State.paceAnswer_of_cons h), h]
    exact ⟨rfl, rfl, rfl, State.writeFaultDue_withPending { s with pace := ps } _ off⟩

/-! ### The paths of `MemWrite` -/

/-- R34, R113: a write that fails, with its fault entry at once or still to come. -/
theorem State.memWrite_paths_of_fails {s : State} {off : Nat} (w : Byte)
    (h : s.imgAnswer = .err ∨ (s.imgAnswer = .ok ∧ s.image.len ≤ off)) : ∃ img fr,
    (s.paceAnswer = .go → s.memWrite off w = { s with
      runState := .fault, cause := .imageIOError, foff := off, fop := .write, executing := none, pending := none,
      imgAns := s.imgAns.tail, pace := s.pace.tail, image := img, fresh := fr,
      trace := s.trace ++ [.fault .imageIOError s.cidx] }) ∧
    (s.paceAnswer = .rest → s.memWrite off w = { s with
      pending := some (.failing off), imgAns := s.imgAns.tail, pace := s.pace.tail, image := img, fresh := fr }) ∧
    img.len = s.image.len ∧ (∀ b, b ≠ off → img.byteAt b = s.image.byteAt b) ∧
    (s.image.len ≤ off → img = s.image) := by
  obtain ⟨img, fr, he, hlen, hother, hout⟩ := State.writeFailed_eq { s with imgAns := s.imgAns.tail } off
  refine ⟨img, fr, fun hpace => ?_, fun hpace => ?_, hlen, hother, hout⟩
  · exact (State.memWrite_of_fails w h).trans (he.trans (State.writeFaultDue_of_go (by exact hpace) off))
  · exact (State.memWrite_of_fails w h).trans (he.trans (State.writeFaultDue_of_rest (by exact hpace) off))

/-- R26, R92: a write that succeeds and whose record is taken; the advance is due. -/
theorem State.memWrite_of_taken {s : State} {off : Nat} (w : Byte) (h : s.imgAnswer = .ok) (hl : off < s.image.len)
    (ht : s.rptAnswer = .take) : s.memWrite off w = State.advanceDue { s with
      imgAns := s.imgAns.tail, rptAns := s.rptAns.tail, image := s.image.setByte off w,
      trace := s.trace ++ [.imgWrite off w, .report off w] } := by
  refine (State.memWrite_of_ok w h hl).trans ((State.sendReport_of_take (by exact ht) off w).trans ?_)
  simp only [List.append_assoc, List.cons_append, List.nil_append]

/-- R34, R96: a code whose write succeeds, whose record is taken and whose advance fits. -/
theorem State.memWrite_completes {s : State} {off : Nat} (w : Byte) (h : s.imgAnswer = .ok) (hl : off < s.image.len)
    (ht : s.rptAnswer = .take) (hpace : s.paceAnswer = .go)
    (hb : s.base + s.params.bankSize < 2 ^ s.params.offw) (hc : s.cidx + 1 < 2 ^ s.params.cidxw) :
    s.memWrite off w = { s with
      image := s.image.setByte off w, pending := none, imgAns := s.imgAns.tail, rptAns := s.rptAns.tail,
      pace := s.pace.tail, base := s.base + s.params.bankSize, cidx := s.cidx + 1,
      trace := s.trace ++ [.imgWrite off w, .report off w] } := by
  exact (State.memWrite_of_taken w h hl ht).trans ((State.advanceDue_of_go (by exact hpace)).trans
    (State.advance_of_fits (by exact hb) (by exact hc)))

/-- R96: the same, where the advance does not fit. -/
theorem State.memWrite_overflows {s : State} {off : Nat} (w : Byte) (h : s.imgAnswer = .ok) (hl : off < s.image.len)
    (ht : s.rptAnswer = .take) (hpace : s.paceAnswer = .go)
    (hb : 2 ^ s.params.offw ≤ s.base + s.params.bankSize ∨ 2 ^ s.params.cidxw ≤ s.cidx + 1) :
    s.memWrite off w = { s with
      image := s.image.setByte off w, pending := none, executing := none, imgAns := s.imgAns.tail,
      rptAns := s.rptAns.tail, pace := s.pace.tail, runState := .fault, cause := .offsetOverflow,
      trace := s.trace ++ [.imgWrite off w, .report off w, .fault .offsetOverflow s.cidx] } := by
  refine (State.memWrite_of_taken w h hl ht).trans ((State.advanceDue_of_go (by exact hpace)).trans
    ((State.advance_of_not_fits (by exact hb)).trans ?_))
  simp only [State.raise, List.append_assoc, List.cons_append, List.nil_append]

/-- R92, R146: the same, where the advance is still to come. -/
theorem State.memWrite_rests {s : State} {off : Nat} (w : Byte) (h : s.imgAnswer = .ok) (hl : off < s.image.len)
    (ht : s.rptAnswer = .take) (hpace : s.paceAnswer = .rest) : s.memWrite off w = { s with
      image := s.image.setByte off w, pending := some .advance, imgAns := s.imgAns.tail, rptAns := s.rptAns.tail,
      pace := s.pace.tail, trace := s.trace ++ [.imgWrite off w, .report off w] } := by
  exact (State.memWrite_of_taken w h hl ht).trans (State.advanceDue_of_rest (by exact hpace))

/-- R27: the record of a write that succeeded is not taken yet. -/
theorem State.memWrite_reports {s : State} {off : Nat} (w : Byte) (h : s.imgAnswer = .ok) (hl : off < s.image.len)
    (ht : s.rptAnswer = .wait) : s.memWrite off w = { s with
      image := s.image.setByte off w, pending := some (.report off w), imgAns := s.imgAns.tail,
      rptAns := s.rptAns.tail, trace := s.trace ++ [.imgWrite off w] } := by
  exact (State.memWrite_of_ok w h hl).trans (State.sendReport_of_wait (by exact ht) off w)

/-! ### The rules of the image requests and of the advance -/

theorem State.advance_image (s : State) : s.advance.image = s.image := by
  obtain ⟨-, he⟩ | ⟨-, he⟩ := s.advance_cases
  · rw [he]
  · rw [he, raise_image]

/-- R92: the report and the advance leave the image. -/
theorem State.advanceDue_image (s : State) : s.advanceDue.image = s.image := by
  cases h : s.paceAnswer
  · rw [State.advanceDue_of_go h, State.advance_image]
  · rw [State.advanceDue_of_rest h]

theorem State.sendReport_image (s : State) (off : Nat) (w : Byte) : (s.sendReport off w).image = s.image := by
  cases h : s.rptAnswer
  · rw [State.sendReport_of_take h, State.advanceDue_image]
  · rw [State.sendReport_of_wait h]

/-- Settles O23: the four answers of the device, each by its equation; after a success the report and the advance
leave the image and only add to the trace. -/
theorem memWriteRule : Obligations.MemWriteRule := by
  intro s off w hwf
  refine ⟨fun h => State.memWrite_of_wait h off w, fun h hl => ?succeeds, fun h => ?fails⟩
  case succeeds =>
    have himage : (s.memWrite off w).image = s.image.setByte off w := by
      rw [State.memWrite_of_ok w h hl, State.sendReport_image]
    have htrace : (s.trace ++ [.imgWrite off w]) <+: (s.memWrite off w).trace := by
      rw [State.memWrite_of_ok w h hl]
      exact (State.sendReport_frame { s with
        imgAns := s.imgAns.tail, image := s.image.setByte off w, trace := s.trace ++ [.imgWrite off w] } off w).trace
    rw [himage]
    exact ⟨Memory.byteAt_setByte_same hwf off w, fun b hb => Memory.byteAt_setByte_other hb _ _, rfl, htrace⟩
  case fails =>
    obtain ⟨img, fr, hgo, hrest, hlen, hother, hout⟩ := State.memWrite_paths_of_fails w h
    have himage : (s.memWrite off w).image = img := by
      cases hpace : s.paceAnswer
      · rw [hgo hpace]
      · rw [hrest hpace]
    rw [himage]
    refine ⟨fun hpace => ?_, fun hpace => ?_, hlen, hother, hout⟩
    · rw [hgo hpace]; exact ⟨rfl, rfl, rfl, rfl, rfl⟩
    · rw [hrest hpace]; exact ⟨rfl, rfl, rfl⟩

/-- Settles O24: the read that succeeds is followed by the write of the selected byte, the one that fails by a fault. -/
theorem memReadRule : Obligations.MemReadRule := by
  refine fun s off v c => ⟨fun h hl => State.memRead_of_ok v c h hl, fun h => ?fails⟩
  case fails =>
    rw [State.memRead_of_fails v c h]
    exact ⟨rfl, rfl, rfl, rfl, rfl, rfl⟩

/-- Settles O25: the two outcomes of R96; at the defaults `BASE + BANK_SIZE` is the first to leave its 32 bits. -/
theorem advanceRule : Obligations.AdvanceRule := by
  refine ⟨fun s hb hc => ?fits, fun s h => ?overflows, fun s hp hb => ?defaults⟩
  case fits =>
    rw [State.advance_of_fits hb hc]
    exact ⟨rfl, rfl, rfl⟩
  case overflows =>
    rw [State.advance_of_not_fits h]
    exact ⟨rfl, rfl, rfl, rfl, rfl⟩
  case defaults =>
    rw [hp, hb]
    simp only [Params.default]
    omega

end Sys2Proof.Machine
end

section
/-! PROOFS. The two instructions: each follows its pseudocode, what it leaves unchanged, and how it goes on after a wait
(40_gg6.md section 2, 41_gg8.md section 2, 42_sequencer.md section 6). -/

namespace Sys2Proof.Machine

/-! ### An execution by whether its Final Offset fits -/

theorem exec_of_overflow {i : Instr} {s : State} (h : s.finalOffset (addressOf i) = none) :
    exec i s = .next ((s.latched i).raise .offsetOverflow) := by
  rw [exec_eq, h]

theorem exec_of_fits {i : Instr} {s : State} {fo : Nat} (h : s.finalOffset (addressOf i) = some fo) :
    exec i s = .next ((s.latched i).access fo i) := by
  rw [exec_eq, h]

/-- R70: what the first lines of `GG6` leave in `d`, from the characters of its code. -/
theorem latch6_encode (i : Instr) (d : NibbleFile) :
    #v[nibbleAt (encode i) 0, nibbleAt (encode i) 1, nibbleAt (encode i) 2, nibbleAt (encode i) 3,
      nibbleAt (encode i) 4, nibbleAt (encode i) 5, d[6], d[7]] = latch6 (encodeNibbles i) d := by
  simp only [encode, nibbleAt_symbols, latch6]

/-- R58, R70: the address that `GG6` finds in `r`. -/
theorem address_of_latch6 {x : Bool} {a : Address} {v : Byte} (h : addressFits a = true) (d r : NibbleFile) :
    assembleAddress (rearrange6 (latch6 (encodeNibbles (.gg6 x a v)) d) r) = a := by
  have haddr := address_of_encode (i := .gg6 x a v) h
  rw [nibbleFile_encode] at haddr
  exact haddr

/-- R59, R70: the value that `GG6` finds in `r`. -/
theorem value_of_latch6 (x : Bool) (a : Address) (v : Byte) (d r : NibbleFile) :
    assembleValue (rearrange6 (latch6 (encodeNibbles (.gg6 x a v)) d) r) = v := by
  have hvalue := value_of_encode_gg6 x a v r
  rw [nibbleFile_encode] at hvalue
  exact hvalue

/-- Settles O13: `MemWrite` on the state that has latched the code, on each of its paths. -/
theorem gg6FollowsItsPseudocode : Obligations.Gg6FollowsItsPseudocode := by
  refine ⟨fun x a v s hfits => ?_, by decide⟩
  simp only [latch6_encode]
  refine ⟨address_of_latch6 hfits s.d s.r, value_of_latch6 x a v s.d s.r, fun h => ?overflow, fun fo hfo hlt => ?_⟩
  case overflow => exact exec_of_overflow (i := .gg6 x a v) (State.finalOffset_none.mpr h)
  have hexec := exec_of_fits (i := .gg6 x a v) (State.finalOffset_some.mpr ⟨hfo, hlt⟩)
  refine ⟨fun h => ?fails, fun h hl ht => ⟨fun hp hb hc => ?completes, fun hp hb => ?overflows, fun hp => ?rests⟩,
    fun h => ?waits, fun h hl ht => ?reports⟩
  case fails =>
    obtain ⟨img, fr, hgo, hrest, hlen, hother, hout⟩ :=
      State.memWrite_paths_of_fails (s := s.latched (.gg6 x a v)) (off := fo) v h
    exact ⟨img, fr, fun hp => hexec.trans (congrArg _ (hgo hp)), fun hp => hexec.trans (congrArg _ (hrest hp)),
      hlen, hother, hout⟩
  case completes =>
    exact hexec.trans (congrArg _ (State.memWrite_completes (s := s.latched (.gg6 x a v)) v h hl ht hp hb hc))
  case overflows =>
    exact hexec.trans (congrArg _ (State.memWrite_overflows (s := s.latched (.gg6 x a v)) v h hl ht hp hb))
  case rests => exact hexec.trans (congrArg _ (State.memWrite_rests (s := s.latched (.gg6 x a v)) v h hl ht hp))
  case waits => exact hexec.trans (congrArg _ (State.memWrite_of_wait (s := s.latched (.gg6 x a v)) h fo v))
  case reports => exact hexec.trans (congrArg _ (State.memWrite_reports (s := s.latched (.gg6 x a v)) v h hl ht))

/-- The state of a `GG8` code whose read has succeeded, before its write (R75). -/
def State.afterRead (s : State) (i : Instr) (fo : Nat) : State :=
  { s.latched i with imgAns := s.imgAns.tail, trace := s.trace ++ [.imgRead fo (s.image.byteAt fo)] }

/-- R75: a `GG8` whose read succeeds is the write of the byte that the comparison selects. -/
theorem exec_gg8_of_read {x : Bool} {a : Address} {v c : Byte} {s : State} {fo : Nat}
    (hfo : s.finalOffset a = some fo) (h : s.imgAnswer = .ok) (hl : fo < s.image.len) :
    exec (.gg8 x a v c) s = .next ((s.afterRead (.gg8 x a v c) fo).memWrite fo
      (if s.image.byteAt fo = c then v else s.image.byteAt fo)) :=
  (exec_of_fits (i := .gg8 x a v c) hfo).trans
    (congrArg _ (State.memRead_of_ok (s := s.latched (.gg8 x a v c)) v c h hl))

/-- Settles O14: the read on the state that has latched the code, then `MemWrite` on each of its paths. -/
theorem gg8FollowsItsPseudocode : Obligations.Gg8FollowsItsPseudocode := by
  refine ⟨fun x a v c s hfits => ?_, by decide⟩
  have haddr := address_of_encode (i := .gg8 x a v c) hfits
  have hvalue := value_of_encode_gg8 x a v c
  have hcompare := compare_of_encode_gg8 x a v c
  simp only [nibbleFile_encode] at haddr hvalue hcompare ⊢
  refine ⟨haddr, hvalue, hcompare, fun h => ?overflow, fun fo hfo hlt => ?_⟩
  case overflow => exact exec_of_overflow (i := .gg8 x a v c) (State.finalOffset_none.mpr h)
  have hoffset : s.finalOffset a = some fo := State.finalOffset_some.mpr ⟨hfo, hlt⟩
  have hexec := exec_of_fits (i := .gg8 x a v c) hoffset
  refine ⟨fun h => ?readFails, fun h hl => ?_, fun h => ?readWaits⟩
  case readFails => exact hexec.trans (congrArg _ (State.memRead_of_fails (s := s.latched (.gg8 x a v c)) v c h))
  case readWaits => exact hexec.trans (congrArg _ (State.memRead_of_wait (s := s.latched (.gg8 x a v c)) h fo v c))
  have hread := exec_gg8_of_read (x := x) (v := v) (c := c) hoffset h hl
  refine ⟨fun h => ?fails, fun h ht => ⟨fun hp hb hc => ?completes, fun hp hb => ?overflows, fun hp => ?rests⟩,
    fun h => ?waits, fun h ht => ?reports⟩
  case fails =>
    obtain ⟨img, fr, hgo, hrest, hlen, hother, -⟩ :=
      State.memWrite_paths_of_fails (s := s.afterRead (.gg8 x a v c) fo) (off := fo) _ (.inl h)
    refine ⟨img, fr, fun hp => ?_, fun hp => hread.trans (congrArg _ (hrest hp)), hlen, hother⟩
    rw [List.append_cons]
    exact hread.trans (congrArg _ (hgo hp))
  case completes =>
    rw [List.append_cons]
    exact hread.trans (congrArg _ (State.memWrite_completes (s := s.afterRead (.gg8 x a v c) fo) _ h hl ht hp hb hc))
  case overflows =>
    rw [List.append_cons]
    exact hread.trans (congrArg _ (State.memWrite_overflows (s := s.afterRead (.gg8 x a v c) fo) _ h hl ht hp hb))
  case rests =>
    rw [List.append_cons]
    exact hread.trans (congrArg _ (State.memWrite_rests (s := s.afterRead (.gg8 x a v c) fo) _ h hl ht hp))
  case waits =>
    exact hread.trans (congrArg _ (State.memWrite_of_wait (s := s.afterRead (.gg8 x a v c) fo) h fo _))
  case reports =>
    rw [List.append_cons]
    exact hread.trans (congrArg _ (State.memWrite_reports (s := s.afterRead (.gg8 x a v c) fo) _ h hl ht))

/-! ### The frame of an execution -/

/-- What an execution of either form leaves unchanged, on every path. -/
structure ExecFrame (a : Address) (s t : State) : Prop where
  params : t.params = s.params
  mode : t.mode = s.mode
  len : t.len = s.len
  bad : t.bad = s.bad
  cq : t.cq = s.cq
  host : t.host = s.host
  readLog : t.readLog = s.readLog
  status : t.runState ≠ .fault → t.runState = s.runState ∧ t.cause = s.cause ∧ t.executing = s.executing
  access : t.cause ≠ .imageIOError → t.foff = s.foff ∧ t.fop = s.fop
  index : (t.base = s.base ∧ t.cidx = s.cidx) ∨ (t.base = s.base + s.params.bankSize ∧ t.cidx = s.cidx + 1)
  image_len : t.image.len = s.image.len
  image_other : ∀ fo, s.finalOffset a = some fo → ∀ b, b ≠ fo → t.image.byteAt b = s.image.byteAt b
  image_of_overflow : s.finalOffset a = none → t.image = s.image

/-- Everything an access phase can do keeps the frame. -/
theorem CodeFrame.execFrame {a : Address} {fo : Nat} {s t : State} (f : CodeFrame fo s t)
    (hfo : s.finalOffset a = some fo) : ExecFrame a s t where
  params := f.params
  mode := f.mode
  len := f.len
  bad := f.bad
  cq := f.cq
  host := f.host
  readLog := f.readLog
  status hr := by
    obtain ⟨hs, hc, -, -, he⟩ | ⟨hs, -⟩ := f.status
    · exact ⟨hs, hc, he⟩
    · exact absurd hs hr
  access hc := by
    obtain ⟨-, -, hop, hoff, -⟩ | ⟨-, -, -, -, ⟨hio, -⟩ | ⟨hop, hoff⟩⟩ := f.status
    · exact ⟨hoff, hop⟩
    · exact absurd hio hc
    · exact ⟨hoff, hop⟩
  index := f.index.imp id fun ⟨hb, hc, _⟩ => ⟨hb, hc⟩
  image_len := f.image_len
  image_other go hgo b hb := f.image_other b (by rw [hfo, Option.some.injEq] at hgo; rwa [hgo])
  image_of_overflow hnone := by rw [hfo] at hnone; cases hnone

/-- R117: so does the fault entry where the Final Offset does not fit. -/
theorem State.raise_execFrame {a : Address} {s : State} (h : s.finalOffset a = none) :
    ExecFrame a s (s.raise .offsetOverflow) where
  params := rfl
  mode := rfl
  len := rfl
  bad := rfl
  cq := rfl
  host := rfl
  readLog := rfl
  status hr := absurd rfl hr
  access _ := ⟨rfl, rfl⟩
  index := .inl ⟨rfl, rfl⟩
  image_len := rfl
  image_other fo hfo := by rw [h] at hfo; cases hfo
  image_of_overflow _ := rfl

/-- The frame of an execution, over the state that has latched its code, and that the nibble files stay as latched. -/
theorem exec_frame {i : Instr} {s t : State} (h : exec i s = .next t) :
    ExecFrame (addressOf i) (s.latched i) t ∧ t.d = (s.latched i).d ∧ t.r = (s.latched i).r := by
  have hoffset : (s.latched i).finalOffset (addressOf i) = s.finalOffset (addressOf i) := by cases i <;> rfl
  obtain ⟨fo, hfo, -, f⟩ | ⟨hnone, rfl⟩ := exec_cases h
  · exact ⟨f.execFrame (hoffset.trans hfo), f.d, f.r⟩
  · exact ⟨State.raise_execFrame (hoffset.trans hnone), rfl, rfl⟩

/-- Settles O15: the frame of both forms; the registers 6 and 7 stay where `GG6` latches its code. -/
theorem gg6Frame : Obligations.Gg6Frame := by
  intro x a v s t h
  obtain ⟨f, hd, hr⟩ := exec_frame h
  rw [hd, hr]
  exact ⟨f.params, f.mode, f.len, f.bad, f.cq, f.host, f.readLog, rfl, rfl, rfl, rfl, f.status, f.access, f.index,
    f.image_len, f.image_other, f.image_of_overflow⟩

/-- Settles O16: the frame of both forms. -/
theorem gg8Frame : Obligations.Gg8Frame := by
  intro x a v c s t h
  obtain ⟨f, -⟩ := exec_frame h
  exact ⟨f.params, f.mode, f.len, f.bad, f.cq, f.host, f.readLog, f.status, f.access, f.index, f.image_len,
    f.image_other, f.image_of_overflow⟩

/-! ### A code that waits -/

/-- The request that an instruction leaves outstanding where the device does not answer (R70, R75). -/
def requestOf (fo : Nat) : Instr → Pending
  | .gg6 _ _ v => .write fo v
  | .gg8 _ _ v c => .read fo v c

theorem State.access_of_wait {s : State} (h : s.imgAnswer = .wait) (fo : Nat) (i : Instr) :
    s.access fo i = { s with imgAns := s.imgAns.tail, pending := some (requestOf fo i) } := by
  cases i with
  | gg6 x a v => exact State.memWrite_of_wait h fo v
  | gg8 x a v c => exact State.memRead_of_wait h fo v c

/-- R27: taking up the request of an instruction is its access phase. -/
theorem State.resume_requestOf (s : State) (p : Option Pending) (fo : Nat) (i : Instr) :
    State.resume { s with pending := p } (requestOf fo i) = s.access fo i := by
  cases i with
  | gg6 x a v => exact s.memWrite_withPending p fo v
  | gg8 x a v c => exact s.memReadThenWrite_withPending p fo v c

/-- Settles O17: the access phase leaves its own request, and taking that up is the access phase again. -/
theorem waitingCodeGoesOnUnchanged : Obligations.WaitingCodeGoesOnUnchanged := by
  intro i s as fo hfo h
  have hans : (s.latched i).imgAnswer = .wait := by cases i <;> exact State.imgAnswer_of_cons h
  have htail : (s.latched i).imgAns.tail = as := by cases i <;> exact congrArg List.tail h
  have hlatched : State.latched { s with imgAns := as } i = { s.latched i with imgAns := as } := by cases i <;> rfl
  refine ⟨_, requestOf fo i, (exec_of_fits hfo).trans (congrArg _ (State.access_of_wait hans fo i)), rfl, ?_⟩
  refine ⟨by cases i <;> rfl, by cases i <;> rfl, by cases i <;> rfl, by cases i <;> rfl, by cases i <;> rfl, ?_⟩
  rw [htail, exec_of_fits (s := { s with imgAns := as }) (i := i) hfo, hlatched]
  exact congrArg _ (State.resume_requestOf { s.latched i with imgAns := as } _ fo i).symm

/-! ### Positions -/

/-- Settles O22: the windows of two positions are whole banks apart. -/
theorem positionsNeverShareAnOffset : Obligations.PositionsNeverShareAnOffset := by
  intro s t a b fo go hs ht hp hbank ha hb hne hfo hgo heq
  obtain ⟨hfo, -⟩ := State.finalOffset_some.mp hfo
  obtain ⟨hgo, -⟩ := State.finalOffset_some.mp hgo
  have hale : a.toNat ≤ 0x7FFF := by simpa [addressFits] using ha
  have hble : b.toNat ≤ 0x7FFF := by simpa [addressFits] using hb
  have hsbase := hs.base_eq
  have htbase := ht.base_eq
  rw [hp] at htbase
  have hapart : ∀ m n : Nat, m < n → m * s.params.bankSize + s.params.bankSize ≤ n * s.params.bankSize := by
    intro m n hmn
    rw [← Nat.succ_mul]
    exact Nat.mul_le_mul_right _ hmn
  rcases Nat.lt_or_gt_of_ne hne with hlt | hlt
  · have hbanks := hapart _ _ hlt; omega
  · have hbanks := hapart _ _ hlt; omega

end Sys2Proof.Machine
end

section
/-! PROOFS. The steps of the sequencer and of the host as equations (42_sequencer.md sections 3, 4, 7, 10_state.md R27,
70_reset_and_hazards.md sections 3, 4). -/

namespace Sys2Proof.Machine

/-! ### The block's own step -/

/-- R98, R99, R117: outside `RUN` the block does nothing. -/
theorem step_of_stopped {s : State} (hr : s.runState ≠ .run) (ho : s.pending = none) (hp : s.passes) :
    step s = .next { s with host := s.host.tail } := by
  have hblock : ∀ u : State, u.runState ≠ .run → u.pending = none → u.blockStep = .next u := by
    intro u hr ho
    unfold State.blockStep
    cases hx : u.runState
    case run => exact absurd hx hr
    all_goals simp [ho]
  exact (step_of_passes hp).trans (hblock _ hr ho)

/-- Settles O33: outside `RUN` with nothing outstanding the block has stopped. -/
theorem nothingHappensOutsideRun : Obligations.NothingHappensOutsideRun :=
  fun _ hr ho hp => step_of_stopped hr ho hp

/-- Settles O26: the two entries are written out by their definitions, and a block in `FAULT` has stopped. -/
theorem faultEntryRecordsAndStops : Obligations.FaultEntryRecordsAndStops :=
  ⟨fun _ _ => rfl, fun _ _ _ => rfl, fun _ hf ho hp => step_of_stopped (by simp [hf]) ho hp⟩

/-- R27: a step of a block that stands at something takes it up, then ends the code. -/
theorem step_of_pending {s : State} {p : Pending} (hp : s.passes) (hr : s.runState = .run) (ho : s.pending = some p) :
    step s = .next (State.resume { s with host := s.host.tail } p).finishCode := by
  rw [step_of_passes hp]
  simp only [State.blockStep, State.runStep, hr, ho]

/-- R27: a step waits for a token. -/
theorem step_of_no_token {s : State} (hp : s.passes) (hr : s.runState = .run) (ho : s.pending = none) (hq : s.cq = []) :
    step s = .next { s with host := s.host.tail } := by
  rw [step_of_passes hp]
  simp only [State.blockStep, State.runStep, hr, ho, hq]

/-- R90, R91: at the terminator of a code that decodes, the step is its execution, then its end. -/
theorem step_of_code {s : State} (hp : s.passes) (hr : s.runState = .run) (ho : s.pending = none) {k : Terminator}
    {ts : List Token} (hq : s.cq = k.token :: ts) {i : Instr} (hi : s.currentCode = .instr i) :
    step s = andThen (exec i (s.accepted k ts)) State.finishCode := by
  have hcode : (s.accepted k ts).currentCode = .instr i := hi
  rw [step_of_terminator hp hr ho hq, State.executeCode, hcode]

/-- Settles O27: for each of the two terminators. -/
theorem stepExecutesTheDecodedCode : Obligations.StepExecutesTheDecodedCode := fun _ _ _ hp hr ho hi =>
  ⟨fun hq => step_of_code (k := .sep) hp hr ho hq hi, fun hq => step_of_code (k := .fin) hp hr ho hq hi⟩

/-- R91: the code that `placeCode` has put in place is what the block decodes. -/
theorem State.placeCode_currentCode (s : State) (code : List Nat) : (s.placeCode code).currentCode = decodeCode code :=
  State.currentCode_latchChars_eq (s := { s with len := 0, bad := false }) rfl rfl code

/-- The decoder's answer that gives an instruction. -/
theorem Decoded_eq_instr_of_instr? {x : Decoded} {i : Instr} (h : x.instr? = some i) : x = .instr i := by
  cases x with
  | instr j => exact congrArg _ (Option.some.inj h)
  | invalidCharacter => cases h
  | invalidLength => cases h

/-- Settles O28: the placed state has its `SEP` first on the code port and decodes to the word's instruction. -/
theorem placedWordIsTheNextCode : Obligations.PlacedWordIsTheNextCode := by
  intro s nbits w i h
  have hi : (s.withFetchWord nbits w).currentCode = .instr i := by
    rw [State.withFetchWord, State.placeCode_currentCode]
    exact Decoded_eq_instr_of_instr? h
  have hp : (s.withFetchWord nbits w).passes := by rfl
  exact step_of_code (k := .sep) (ts := s.cq) hp rfl rfl rfl hi

/-! ### The end of a code -/

@[simp] theorem State.finishCode_cq (s : State) : s.finishCode.cq = s.cq := by
  obtain he | ⟨-, -, -, he⟩ | ⟨-, -, -, he⟩ | ⟨-, -, -, he⟩ := s.finishCode_cases <;> rw [he]

/-- R90, R98: the step that takes up or executes a code ends with `finishCode` of what that gives. -/
theorem step_eq_finishCode {s t : State} (hp : s.passes) (hr : s.runState = .run)
    (h : (∃ p, s.pending = some p ∧ t = State.resume { s with host := s.host.tail } p) ∨
      ∃ k i ts, s.pending = none ∧ s.currentCode = .instr i ∧
        s.cq = (match k with | Terminator.sep => Token.sep | .fin => .fin) :: ts ∧
        exec i { s with host := s.host.tail, cq := ts, executing := some k } = .next t) :
    step s = .next t.finishCode := by
  obtain ⟨p, ho, rfl⟩ | ⟨k, i, ts, ho, hi, hq, he⟩ := h
  · exact step_of_pending hp hr ho
  · have hq' : s.cq = k.token :: ts := by rw [hq]; cases k <;> rfl
    have he' : exec i (s.accepted k ts) = .next t := he
    rw [step_of_code hp hr ho hq' hi, he', andThen]

/-- Settles O31: the step is `finishCode`, by the terminator and by the pace; what stands outstanding is taken up with
the code port untouched. -/
theorem terminatorEndsCodeOrRun : Obligations.TerminatorEndsCodeOrRun := by
  refine ⟨fun s p hp hr ho => step_of_pending hp hr ho, fun s t hp hr h => ?ends, fun s t p hp hr ho h => ?port⟩
  case ends =>
    have hstep := step_eq_finishCode hp hr h
    refine ⟨fun hrun hnone => ⟨fun hx hpace => ?sep, fun hx hpace => ?fin, fun hx hpace => ?rest⟩,
      fun hidle => ?idle⟩
    case sep => rw [hstep, State.finishCode_of_go hrun hnone hx hpace]; rfl
    case fin => rw [hstep, State.finishCode_of_go hrun hnone hx hpace]; rfl
    case rest =>
      obtain ⟨k, hk⟩ := Option.isSome_iff_exists.mp hx
      rw [hstep, State.finishCode_of_rest hrun hnone hk hpace]
    case idle => rw [hstep, State.finishCode_of_idle hidle]
  case port =>
    obtain ⟨off, -, f⟩ := State.exists_resume_frame { s with host := s.host.tail } p
    cases (step_of_pending hp hr ho).symm.trans h
    rw [State.finishCode_cq, f.cq]

/-! ### Waiting -/

/-- R27: where taking up what is outstanding leaves something outstanding, that is all the step does. -/
theorem step_of_waiting {s u : State} {p : Pending} (hp : s.passes) (hr : s.runState = .run) (ho : s.pending = some p)
    (hu : State.resume { s with host := s.host.tail } p = u) (hw : u.pending.isSome) : step s = .next u := by
  rw [step_of_pending hp hr ho, hu, State.finishCode_of_idle (.inr hw)]

/-- Settles O32: each kind of waiting is put back as it was, and only the answer that said so is used up. -/
theorem waitingChangesNothing : Obligations.WaitingChangesNothing := by
  refine ⟨fun s hp hr ho hq => step_of_no_token hp hr ho hq, fun s off v c hp hr ho h => ?read,
    fun s off w hp hr ho h => ?write, fun s off w hp hr ho h => ?report, fun s off hp hr ho h => ?failing,
    fun s hp hr ho h => ?advance, fun s hp hr ho hx h => ?ending⟩
  case read =>
    rw [step_of_waiting hp hr ho (State.memRead_of_wait (by exact h) off v c) rfl, ho]
  case write =>
    rw [step_of_waiting hp hr ho (State.memWrite_of_wait (by exact h) off w) rfl, ho]
  case report =>
    rw [step_of_waiting hp hr ho (State.sendReport_of_wait (by exact h) off w) rfl, ho]
  case failing =>
    rw [step_of_waiting hp hr ho (State.writeFaultDue_of_rest (by exact h) off) rfl, ho]
  case advance =>
    rw [step_of_waiting hp hr ho (State.advanceDue_of_rest (by exact h)) rfl, ho]
  case ending =>
    obtain ⟨k, hk⟩ := Option.isSome_iff_exists.mp hx
    rw [step_of_pending hp hr ho, State.resume,
      State.finishCode_of_rest (s := { s with host := s.host.tail, pending := none }) hr rfl hk h, ho]

/-! ### `START` -/

/-- Settles O34: the step is `State.start`, by the run state and by the platform. -/
theorem startSeedsOrFaults : Obligations.StartSeedsOrFaults := by
  intro s n ms hs hn
  have hstep : step s = .next (State.start { s with host := ms }) := by
    rw [step_of_write hs, State.hostWrite_ctrl_of_odd _ hn]
  refine ⟨fun hr => ?accepts, fun hr => ?ignores⟩
  case accepts =>
    have ha : State.acceptsCommands { s with host := ms } = true := (State.acceptsCommands_iff _).mpr hr
    refine ⟨fun hm => ?seeds, fun hm => ?faults⟩
    case seeds => rw [hstep, State.start, if_pos ha, if_pos hm]; rfl
    case faults =>
      rw [hstep, State.start, if_pos ha, if_neg hm]
      simp only [State.startRejected, State.record, State.raise, List.append_assoc, List.cons_append, List.nil_append]
  case ignores =>
    have ha : State.acceptsCommands { s with host := ms } = false := (State.acceptsCommands_eq_false_iff _).mpr hr
    rw [hstep, State.start, ha]
    rfl

/-! ### The host's new image -/

theorem step_of_loadImage {s : State} {len : Nat} {cells : List Host.Cell} {ms : List HostMove}
    (h : s.host = .loadImage len cells :: ms) : step s = State.hostLoadImage { s with host := ms } len cells := by
  simp only [step, State.turn, h, State.hostMove]

/-- R141: during a run the new image is refused. -/
theorem State.hostLoadImage_of_run {s : State} (h : s.runState = .run) (len : Nat) (cells : List Host.Cell) :
    s.hostLoadImage len cells = .refused .hostImageDuringRun := by
  rw [State.hostLoadImage, h]

/-- R136, R6: outside a run its length decides. -/
theorem State.hostLoadImage_of_not_run {s : State} (h : s.runState ≠ .run) (len : Nat) (cells : List Host.Cell) :
    s.hostLoadImage len cells = if len ≤ 2 ^ s.params.offw then .next { s with image := Memory.ofCells len cells }
      else .refused .imageTooLong := by
  unfold State.hostLoadImage
  cases hr : s.runState
  case run => exact absurd hr h
  all_goals rfl

/-- R136: the image put in place holds the bytes given. -/
theorem Memory.byteAt_ofCells {len a : Nat} (h : a < len) (cells : List Host.Cell) :
    (Memory.ofCells len cells).byteAt a = Memory.lookup cells a := by
  induction cells with
  | nil => rfl
  | cons cell cells ih =>
    obtain ⟨x, b⟩ := cell
    by_cases ha : a = x
    · subst ha
      rw [Memory.ofCells, if_pos h, Memory.byteAt_setByte_same (Memory.wf_ofCells len cells), Memory.lookup, if_pos rfl]
    · rw [Memory.lookup, if_neg ha, ← ih, Memory.ofCells]
      split_ifs
      · exact Memory.byteAt_setByte_other ha _ _
      · rfl

/-- Settles O41: the move by the run state and by the length. -/
theorem hostImageOnlyOutsideRun : Obligations.HostImageOnlyOutsideRun := by
  intro s len cells ms hs
  refine ⟨fun hr => ?refused, fun hr hl => ?loaded, fun hr hl => ?tooLong⟩
  case refused => rw [step_of_loadImage hs, State.hostLoadImage_of_run (by exact hr)]
  case loaded =>
    refine ⟨Memory.ofCells len cells, ?_, Memory.ofCells_len len cells, Memory.wf_ofCells len cells,
      fun a ha => Memory.byteAt_ofCells ha cells⟩
    rw [step_of_loadImage hs, State.hostLoadImage_of_not_run (by exact hr), if_pos hl]
  case tooLong =>
    rw [step_of_loadImage hs, State.hostLoadImage_of_not_run (by exact hr), if_neg (Nat.not_le.mpr hl)]

/-! ### Steps that answer no next state -/

theorem step_of_offer {s : State} {k : Token} {ms : List HostMove} (h : s.host = .offer k :: ms) :
    step s = .next { s with host := ms, cq := s.cq ++ [k.onPort s.params] } := by
  simp only [step, State.turn, h, State.hostMove]

/-- R91: the code that has arrived always answers a next state. -/
theorem State.executeCode_next (s : State) : ∃ t, s.executeCode = .next t := by
  obtain ⟨i, -, he⟩ | ⟨-, he⟩ | ⟨-, he⟩ := State.executeCode_cases (s := s) rfl
  · obtain ⟨t, ht⟩ := exec_next i s
    exact ⟨t, he.trans ht⟩
  · exact ⟨_, he⟩
  · exact ⟨_, he⟩

/-- In `RUN` the block's own step answers a next state. -/
theorem step_next_of_run {s : State} (hp : s.passes) (hr : s.runState = .run) : ∃ t, step s = .next t := by
  cases ho : s.pending with
  | some p => exact ⟨_, step_of_pending hp hr ho⟩
  | none =>
    have hterm : ∀ (k : Terminator) ts, s.cq = k.token :: ts → ∃ t, step s = .next t := by
      intro k ts hq
      obtain ⟨t, ht⟩ := (s.accepted k ts).executeCode_next
      exact ⟨t.finishCode, by rw [step_of_terminator hp hr ho hq, ht, andThen]⟩
    cases hq : s.cq with
    | nil => exact ⟨_, step_of_no_token hp hr ho hq⟩
    | cons k ts =>
      cases k with
      | char c => exact ⟨_, step_of_char hp hr ho hq⟩
      | sep => exact hterm .sep ts hq
      | fin => exact hterm .fin ts hq

/-- Settles O44: the invariant shuts out something outstanding outside a run, and of the host's moves only the new image
can be refused. -/
theorem onlyAHostImageStopsAStep : Obligations.OnlyAHostImageStopsAStep := by
  intro s h
  have hpasses : s.passes → ∃ t, step s = .next t := by
    intro hp
    by_cases hr : s.runState = .run
    · exact step_next_of_run hp hr
    · exact ⟨_, step_of_stopped hr (h.pending_none hr) hp⟩
  cases hs : s.host with
  | nil => exact .inl (hpasses (by simp [State.passes, hs]))
  | cons m ms =>
    cases m with
    | pass => exact .inl (hpasses (by simp [State.passes, hs]))
    | reset => exact .inl ⟨_, step_of_reset hs⟩
    | write r n => exact .inl ⟨_, step_of_write hs⟩
    | read r => exact .inl ⟨_, step_of_read hs⟩
    | offer k => exact .inl ⟨_, step_of_offer hs⟩
    | loadImage len cells =>
      obtain ⟨hrun, hloads, hlong⟩ := hostImageOnlyOutsideRun s len cells ms hs
      by_cases hr : s.runState = .run
      · exact .inr ⟨len, cells, ms, rfl, .inl ⟨hr, hrun hr⟩⟩
      · by_cases hl : len ≤ 2 ^ s.params.offw
        · obtain ⟨m, hm, -⟩ := hloads hr hl
          exact .inl ⟨_, hm⟩
        · have hlt : 2 ^ s.params.offw < len := Nat.not_le.mp hl
          exact .inr ⟨len, cells, ms, rfl, .inr ⟨hr, hlt, hlong hr hlt⟩⟩

end Sys2Proof.Machine
end

section
/-! PROOFS. What every step keeps: the image outside the window and its length, `CIDX` and `BASE`, `MODE`, the order of
the tokens, the trace, bit 3 of `r[0]` (10_state.md sections 2 to 7, 20_memory.md section 6). -/

namespace Sys2Proof.Machine

/-! ### The frame of the block's own step -/

/-- An offset at which the block's next step may store: that of what is outstanding, or the Final Offset of a
well-formed code. -/
def State.mayStore (s : State) (b : Nat) : Prop :=
  (∃ p, s.pending = some p ∧ p.off? = some b) ∨ ∃ a, addressFits a = true ∧ s.finalOffset a = some b

/-- Everything a step can change in which the host makes no move. -/
structure BlockFrame (s t : State) : Prop where
  params : t.params = s.params
  mode : t.mode = s.mode
  image_len : t.image.len = s.image.len
  image_other : ∀ b, ¬ s.mayStore b → t.image.byteAt b = s.image.byteAt b
  trace : s.trace <+: t.trace
  /-- R12, R96: `CIDX` and `BASE` stand, or are advanced together in `RUN`. -/
  index : (t.cidx = s.cidx ∧ t.base = s.base) ∨
    (s.runState = .run ∧ t.cidx = s.cidx + 1 ∧ t.base = s.base + s.params.bankSize)
  /-- R24: the code port stands, or its first token is taken. -/
  cq : t.cq = s.cq ∨ (t.cq = s.cq.tail ∧ s.runState = .run ∧ s.pending = none)
  /-- R56, R57: the Rearranged Nibble Set stands, or is that of a code. -/
  high : t.r[0] = s.r[0] ∨ t.r[0].getLsbD 3 = false

/-- A step that touches neither the image nor the position, and adds to the trace. -/
theorem BlockFrame.of_quiet {s t : State} (params : t.params = s.params) (mode : t.mode = s.mode)
    (image : t.image = s.image) (trace : s.trace <+: t.trace) (cidx : t.cidx = s.cidx) (base : t.base = s.base)
    (r : t.r = s.r) (cq : t.cq = s.cq ∨ (t.cq = s.cq.tail ∧ s.runState = .run ∧ s.pending = none)) :
    BlockFrame s t where
  params := params
  mode := mode
  image_len := by rw [image]
  image_other _ _ := by rw [image]
  trace := trace
  index := .inl ⟨cidx, base⟩
  cq := cq
  high := .inl (by rw [r])

/-- The end of a code may follow. -/
theorem BlockFrame.finishCode {s t : State} (f : BlockFrame s t) : BlockFrame s t.finishCode := by
  obtain he | ⟨-, -, -, he⟩ | ⟨-, -, -, he⟩ | ⟨-, -, -, he⟩ := t.finishCode_cases
  · rwa [he]
  · rw [he]; exact { f with }
  · rw [he]; exact { f with trace := f.trace.trans (List.prefix_append _ _) }
  · rw [he]; exact { f with }

/-- The access phase of a code, at an offset where the block may store, from a state that has the image and the position
of the state before. -/
theorem CodeFrame.blockFrame {off : Nat} {s u t : State} (f : CodeFrame off u t) (hu : BlockFrame s u)
    (himage : u.image = s.image) (hindex : u.cidx = s.cidx ∧ u.base = s.base) (hr : s.runState = .run)
    (hoff : ∀ b, ¬ s.mayStore b → t.image.byteAt b = u.image.byteAt b) : BlockFrame s t where
  params := f.params.trans hu.params
  mode := f.mode.trans hu.mode
  image_len := by rw [f.image_len, himage]
  image_other b hb := by rw [hoff b hb, himage]
  trace := hu.trace.trans f.trace
  index := by
    obtain ⟨hcidx, hbase⟩ := hindex
    obtain ⟨hb, hc⟩ | ⟨hb, hc, -⟩ := f.index
    · exact .inl ⟨hc.trans hcidx, hb.trans hbase⟩
    · exact .inr ⟨hr, by rw [hc, hcidx], by rw [hb, hbase, hu.params]⟩
  cq := by rw [f.cq]; exact hu.cq
  high := by rw [f.r]; exact hu.high

/-- R117: a fault entry may follow. -/
theorem BlockFrame.raise {s t : State} (f : BlockFrame s t) (c : Cause) : BlockFrame s (t.raise c) :=
  { f with trace := f.trace.trans (List.prefix_append _ _) }

/-- R27: the block takes up what is outstanding. -/
theorem State.resume_blockFrame {s : State} {p : Pending} (hr : s.runState = .run) (ho : s.pending = some p) :
    BlockFrame s (State.resume { s with host := s.host.tail } p) := by
  obtain ⟨off, -, f⟩ := State.exists_resume_frame { s with host := s.host.tail } p
  have hu : BlockFrame s { s with host := s.host.tail } :=
    .of_quiet rfl rfl rfl List.prefix_rfl rfl rfl rfl (.inl rfl)
  refine f.blockFrame hu rfl ⟨rfl, rfl⟩ hr fun b hb => ?_
  cases hoff : p.off? with
  | none =>
    have g := State.resume_frame { s with host := s.host.tail } p (off := b + 1) fun o h => by rw [hoff] at h; cases h
    exact g.image_other b (by omega)
  | some o =>
    have g := State.resume_frame { s with host := s.host.tail } p (off := o) fun o' h => by
      rw [hoff] at h; exact (Option.some.inj h).symm
    exact g.image_other b fun h => hb (.inl ⟨p, ho, by rw [hoff, h]⟩)

/-- R70, R75, R90: the block takes a terminator and latches its code. -/
theorem State.latched_blockFrame {s : State} (hr : s.runState = .run) (ho : s.pending = none) {k : Terminator}
    {ts : List Token} (hq : s.cq = k.token :: ts) (i : Instr) : BlockFrame s ((s.accepted k ts).latched i) where
  params := by cases i <;> rfl
  mode := by cases i <;> rfl
  image_len := by cases i <;> rfl
  image_other _ _ := by cases i <;> rfl
  trace := by cases i <;> exact List.prefix_rfl
  index := .inl (by cases i <;> exact ⟨rfl, rfl⟩)
  cq := .inr ⟨by rw [hq]; cases i <;> rfl, hr, ho⟩
  high := .inr (by cases i <;> exact masked_high _)

/-- R91: the block takes a terminator and executes its code. -/
theorem exec_blockFrame {s u : State} (hr : s.runState = .run) (ho : s.pending = none) {k : Terminator}
    {ts : List Token} (hq : s.cq = k.token :: ts) {i : Instr} (hi : i.wf = true)
    (h : exec i (s.accepted k ts) = .next u) : BlockFrame s u := by
  have hlatched := State.latched_blockFrame hr ho hq i
  obtain ⟨fo, hfo, -, f⟩ | ⟨-, rfl⟩ := exec_cases h
  · refine f.blockFrame hlatched (by cases i <;> rfl) (by cases i <;> exact ⟨rfl, rfl⟩) hr fun b hb => ?_
    exact f.image_other b fun e => hb (.inr ⟨addressOf i, addressFits_of_wf hi, e ▸ hfo⟩)
  · exact hlatched.raise .offsetOverflow

/-- Everything a step that answers a next state can have been: the block's own, or one of the host's five moves. -/
inductive StepFrame (s : State) : State → Prop
  | block {t : State} (hp : s.passes) (f : BlockFrame s t) : StepFrame s t
  | reset (ms : List HostMove) (hs : s.host = .reset :: ms) : StepFrame s { s with host := ms }.applyReset
  | write (r : HostReg) (n : Nat) (ms : List HostMove) (hs : s.host = .write r n :: ms) :
      StepFrame s (State.hostWrite { s with host := ms } r n)
  | read (r : HostReg) (ms : List HostMove) (hs : s.host = .read r :: ms) :
      StepFrame s { s with host := ms, readLog := s.readLog ++ [(r, s.hostRead r)] }
  | offer (k : Token) (ms : List HostMove) (hs : s.host = .offer k :: ms) :
      StepFrame s { s with host := ms, cq := s.cq ++ [k.onPort s.params] }
  | loadImage (len : Nat) (cells : List Host.Cell) (ms : List HostMove) (hs : s.host = .loadImage len cells :: ms) :
      StepFrame s { s with host := ms, image := Memory.ofCells len cells }

/-- The cases of a step, with the block's own in one. -/
theorem step_frame {s t : State} (h : step s = .next t) : StepFrame s t := by
  cases step_cases h with
  | waits hp => exact .block hp (.of_quiet rfl rfl rfl List.prefix_rfl rfl rfl rfl (.inl rfl))
  | resumes hp p hr ho => exact .block hp (State.resume_blockFrame hr ho).finishCode
  | char hp c ts hr ho hq =>
    exact .block hp (.of_quiet rfl rfl rfl List.prefix_rfl rfl rfl rfl (.inr ⟨by rw [hq]; rfl, hr, ho⟩))
  | illegal hp k ts hr ho hq c =>
    exact .block hp (.of_quiet rfl rfl rfl (List.prefix_append _ _) rfl rfl rfl (.inr ⟨by rw [hq]; rfl, hr, ho⟩))
  | executes hp k ts hr ho hq i hi u hu =>
    exact .block hp (exec_blockFrame hr ho hq (State.wf_of_currentCode hi) hu).finishCode
  | reset ms hs => exact .reset ms hs
  | write r n ms hs => exact .write r n ms hs
  | read r ms hs => exact .read r ms hs
  | offer k ms hs => exact .offer k ms hs
  | loadImage len cells ms hs => exact .loadImage len cells ms hs

/-- What the host's next move is where it passes. -/
theorem State.head?_of_passes {s : State} (h : s.passes) {m : HostMove} (hm : m ≠ .pass) :
    s.host.head? ≠ some m := by
  intro hs
  rw [State.passes, List.headD_eq_head?_getD, hs, Option.getD_some] at h
  exact hm h

/-! ### The image -/

@[simp] theorem State.hostWrite_image (s : State) (r : HostReg) (n : Nat) : (s.hostWrite r n).image = s.image := by
  obtain he | ⟨-, -, he⟩ | ⟨-, -, -, he⟩ | ⟨-, -, -, he⟩ := s.hostWrite_cases r n
  · rw [he]
  · rw [he]
  · rw [he, startAccepted_image]
  · rw [he, startRejected_image]

/-- Settles O46: every write keeps the length, and only the host's new image brings another. -/
theorem imageIsNeverResized : Obligations.ImageIsNeverResized := by
  intro s t hno h
  cases step_frame h with
  | block _ f => exact f.image_len
  | reset ms => exact State.imageAfterReset_len _
  | write r n ms => rw [State.hostWrite_image]
  | read => rfl
  | offer => rfl
  | loadImage len cells ms hs => exact absurd (by rw [hs]; rfl) (hno len cells)

/-- R38: under the invariant the block stores in the window of the current code only. -/
theorem State.Inv.inWindow_of_mayStore {s : State} (h : s.Inv) {b : Nat} (hb : s.mayStore b) : s.inWindow b := by
  obtain ⟨p, hp, ho⟩ | ⟨a, ha, hfo⟩ := hb
  · exact h.pending_window p b hp ho
  · exact State.inWindow_of_finalOffset ha hfo

/-- A step that is no new image stores only where the block may store. -/
theorem step_byteAt_other {s t : State} (hno : ∀ len cells, s.host.headD .pass ≠ .loadImage len cells)
    (h : step s = .next t) {b : Nat} (hb : ¬ s.mayStore b) : t.image.byteAt b = s.image.byteAt b := by
  cases step_frame h with
  | block _ f => exact f.image_other b hb
  | reset ms =>
    exact State.imageAfterReset_byteAt_other (s := { s with host := ms }) fun off w hp e =>
      hb (.inl ⟨.write off w, hp, congrArg some e.symm⟩)
  | write r n ms => rw [State.hostWrite_image]
  | read => rfl
  | offer => rfl
  | loadImage len cells ms hs => exact absurd (by rw [hs]; rfl) (hno len cells)

/-- Settles O45: the window starts at `BASE`, which lies beyond the header. -/
theorem stepsStoreOnlyInTheWindow : Obligations.StepsStoreOnlyInTheWindow := by
  intro s t hinv hno h
  have hkeeps : ∀ b, ¬ s.inWindow b → t.image.byteAt b = s.image.byteAt b := fun b hb =>
    step_byteAt_other hno h fun hm => hb (hinv.inWindow_of_mayStore hm)
  refine ⟨hkeeps, fun b hb => hkeeps b fun ⟨hle, _⟩ => ?_⟩
  have hbase := hinv.base_eq
  omega

/-! ### `CIDX`, `BASE` and `MODE` -/

/-- Settles O47: the block's step by its frame, the seed by `RESET` and by a write of `CTRL`. -/
theorem indexMovesOnlyByAdvanceStartReset : Obligations.IndexMovesOnlyByAdvanceStartReset := by
  intro s t h
  cases step_frame h with
  | block _ f => exact f.index.imp id fun hadv => .inl hadv
  | reset ms hs => exact .inr (.inr ⟨rfl, rfl, .inl (by rw [hs]; rfl)⟩)
  | write r n ms hs =>
    obtain he | ⟨-, -, he⟩ | ⟨rfl, -, -, he⟩ | ⟨rfl, -, -, he⟩ :=
      State.hostWrite_cases { s with host := ms } r n
    · rw [he]; exact .inl ⟨rfl, rfl⟩
    · rw [he]; exact .inl ⟨rfl, rfl⟩
    · rw [he]; exact .inr (.inr ⟨rfl, rfl, .inr ⟨n, by rw [hs]; rfl⟩⟩)
    · rw [he]; exact .inr (.inr ⟨rfl, rfl, .inr ⟨n, by rw [hs]; rfl⟩⟩)
  | read => exact .inl ⟨rfl, rfl⟩
  | offer => exact .inl ⟨rfl, rfl⟩
  | loadImage => exact .inl ⟨rfl, rfl⟩

/-- Settles O48: the block's step keeps `MODE`; of the register writes only that of `MODE` stores in it. -/
theorem modeChangesOnlyByHost : Obligations.ModeChangesOnlyByHost := by
  intro s t h
  cases step_frame h with
  | block _ f => exact ⟨f.params, fun hm => absurd f.mode hm⟩
  | reset ms hs => exact ⟨rfl, fun _ => .inl (by rw [hs]; rfl)⟩
  | write r n ms hs =>
    obtain he | ⟨rfl, ha, he⟩ | ⟨-, -, -, he⟩ | ⟨-, -, -, he⟩ :=
      State.hostWrite_cases { s with host := ms } r n
    · rw [he]; exact ⟨rfl, fun hm => absurd rfl hm⟩
    · rw [he]; exact ⟨rfl, fun _ => .inr ⟨(State.acceptsCommands_iff _).mp ha, n, by rw [hs]; rfl⟩⟩
    · rw [he]; exact ⟨rfl, fun hm => absurd rfl hm⟩
    · rw [he]; exact ⟨rfl, fun hm => absurd rfl hm⟩
  | read => exact ⟨rfl, fun hm => absurd rfl hm⟩
  | offer => exact ⟨rfl, fun hm => absurd rfl hm⟩
  | loadImage => exact ⟨rfl, fun hm => absurd rfl hm⟩

/-! ### The code port and the trace -/

@[simp] theorem State.hostWrite_cq (s : State) (r : HostReg) (n : Nat) : (s.hostWrite r n).cq = s.cq := by
  obtain he | ⟨-, -, he⟩ | ⟨-, -, -, he⟩ | ⟨-, -, -, he⟩ := s.hostWrite_cases r n
  · rw [he]
  · rw [he]
  · rw [he, startAccepted_cq]
  · rw [he, startRejected_cq]

/-- R24, log 16: a token whose character fits the port stands on it as it is. -/
theorem Token.onPort_of_fits {p : Params} {k : Token} (h : k.fits p = true) : k.onPort p = k := by
  cases k with
  | char c =>
    have hlt : c < 2 ^ p.charW := by simpa [Token.fits] using h
    rw [Token.onPort, Nat.mod_eq_of_lt hlt]
  | sep => rfl
  | fin => rfl

/-- Settles O49: the block's step by its frame; of the host's moves only an offer and `RESET` touch the port. -/
theorem tokensAreTakenInOrder : Obligations.TokensAreTakenInOrder := by
  refine ⟨fun s t h => ?order, fun s k ms hs => ⟨step_of_offer hs, Token.onPort_of_fits⟩⟩
  case order =>
    cases step_frame h with
    | block hp f =>
      obtain hq | ⟨hq, hr, ho⟩ := f.cq
      · exact .inl ⟨hq, fun k => State.head?_of_passes hp (by simp)⟩
      · exact .inr (.inl ⟨hq, hr, ho, hp⟩)
    | reset ms hs => exact .inr (.inr (.inr ⟨rfl, by rw [hs]; rfl⟩))
    | write r n ms hs => exact .inl ⟨by rw [State.hostWrite_cq], by simp [hs]⟩
    | read r ms hs => exact .inl ⟨rfl, by simp [hs]⟩
    | offer k ms hs => exact .inr (.inr (.inl ⟨k, rfl, by rw [hs]; rfl⟩))
    | loadImage len cells ms hs => exact .inl ⟨rfl, by simp [hs]⟩

/-- Settles O50: `START` records events, no other move of the host does. -/
theorem traceOnlyGrows : Obligations.TraceOnlyGrows := by
  intro s t h
  cases step_frame h with
  | block _ f => exact f.trace
  | write r n ms =>
    obtain he | ⟨-, -, he⟩ | ⟨-, -, -, he⟩ | ⟨-, -, -, he⟩ :=
      State.hostWrite_cases { s with host := ms } r n
    · rw [he]
    · rw [he]
    · rw [he, State.startAccepted_trace]; exact List.prefix_append _ _
    · rw [he, State.startRejected_trace, List.append_assoc]; exact List.prefix_append _ _
  | reset => exact List.prefix_rfl
  | read => exact List.prefix_rfl
  | offer => exact List.prefix_rfl
  | loadImage => exact List.prefix_rfl

/-! ### The Rearranged Nibble Set -/

@[simp] theorem State.hostWrite_r (s : State) (r : HostReg) (n : Nat) : (s.hostWrite r n).r = s.r := by
  obtain he | ⟨-, -, he⟩ | ⟨-, -, -, he⟩ | ⟨-, -, -, he⟩ := s.hostWrite_cases r n
  · rw [he]
  · rw [he]
  · rw [he, startAccepted_r]
  · rw [he, startRejected_r]

/-- Settles O51: `r[0]` is written masked to three bits. -/
theorem rearrangedHighBitStaysClear : Obligations.RearrangedHighBitStaysClear := by
  have hreset : State.reset.r[0].getLsbD 3 = false := by decide
  refine ⟨fun s t hclear h => ?_, hreset⟩
  cases step_frame h with
  | block _ f =>
    obtain hr | hr := f.high
    · rwa [hr]
    · exact hr
  | reset => exact hreset
  | write r n ms => rwa [State.hostWrite_r]
  | read => exact hclear
  | offer => exact hclear
  | loadImage => exact hclear

end Sys2Proof.Machine
end

section
/-! PROOFS. What the machine does not depend on: the ignored bit, the Rearranged Nibble Set it starts with, the bytes of
the image but one (10_state.md section 8, 30_encoding.md R62, 40_gg6.md R71, 41_gg8.md R78). -/

namespace Sys2Proof.Machine

/-! ### The operations of a code carry nibble files and image along -/

/-- A state with other nibble files and another image. -/
def State.withData (s : State) (d r : NibbleFile) (m : Memory) : State := { s with d := d, r := r, image := m }

theorem State.advance_withData (s : State) (d r : NibbleFile) (m : Memory) :
    (s.withData d r m).advance = s.advance.withData d r m := by
  have hfits : (s.withData d r m).advanceFits = s.advanceFits := rfl
  rw [State.advance, State.advance, hfits]
  cases s.advanceFits <;> rfl

theorem State.advanceDue_withData (s : State) (d r : NibbleFile) (m : Memory) :
    (s.withData d r m).advanceDue = s.advanceDue.withData d r m := by
  cases h : s.paceAnswer
  · rw [State.advanceDue_of_go h, State.advanceDue_of_go (s := s.withData d r m) h]
    exact State.advance_withData { s with pace := s.pace.tail, pending := none } d r m
  · rw [State.advanceDue_of_rest h, State.advanceDue_of_rest (s := s.withData d r m) h]
    rfl

theorem State.writeFaultDue_withData (s : State) (d r : NibbleFile) (m : Memory) (off : Nat) :
    (s.withData d r m).writeFaultDue off = (s.writeFaultDue off).withData d r m := by
  cases h : s.paceAnswer
  · rw [State.writeFaultDue_of_go h, State.writeFaultDue_of_go (s := s.withData d r m) h]
    rfl
  · rw [State.writeFaultDue_of_rest h, State.writeFaultDue_of_rest (s := s.withData d r m) h]
    rfl

theorem State.sendReport_withData (s : State) (d r : NibbleFile) (m : Memory) (off : Nat) (w : Byte) :
    (s.withData d r m).sendReport off w = (s.sendReport off w).withData d r m := by
  cases h : s.rptAnswer
  · rw [State.sendReport_of_take h, State.sendReport_of_take (s := s.withData d r m) h]
    exact State.advanceDue_withData { s with rptAns := s.rptAns.tail, trace := s.trace ++ [.report off w] } d r m
  · rw [State.sendReport_of_wait h, State.sendReport_of_wait (s := s.withData d r m) h]
    rfl

/-- The outcomes `t` and `t'` of two states that differ in nibble files and image alone differ in these alone: `t'` has
the nibble files of its start, and the image of `t` if the images `m` and `n` at the start are one. -/
def State.Follows (d r : NibbleFile) (m n : Memory) (t t' : State) : Prop :=
  ∃ m', t' = t.withData d r m' ∧ (m = n → m' = t.image)

theorem State.writeFaultDue_image (s : State) (off : Nat) : (s.writeFaultDue off).image = s.image := by
  cases h : s.paceAnswer
  · rw [State.writeFaultDue_of_go h]; rfl
  · rw [State.writeFaultDue_of_rest h]

theorem State.writeFailed_follows (s : State) (d r : NibbleFile) {m : Memory} (hm : m.len = s.image.len) (off : Nat) :
    State.Follows d r m s.image (s.writeFailed off) ((s.withData d r m).writeFailed off) := by
  by_cases h : off < s.image.len
  · have h' : off < (s.withData d r m).image.len := hm.symm ▸ h
    refine ⟨m.setByte off (Config.failedWriteByte s.fresh), ?_, fun e => ?_⟩
    · rw [State.writeFailed, if_pos h', State.writeFailed, if_pos h]
      exact State.writeFaultDue_withData { s with
        image := s.image.setByte off (Config.failedWriteByte s.fresh), fresh := s.fresh + 1 } d r _ off
    · rw [State.writeFailed, if_pos h, State.writeFaultDue_image, e]
  · have hle : s.image.len ≤ off := Nat.not_lt.mp h
    refine ⟨m, ?_, fun e => ?_⟩
    · rw [State.writeFailed_outside hle, State.writeFailed_outside (s := s.withData d r m) (hm.trans_le hle),
        State.writeFaultDue_withData]
    · rw [State.writeFailed_outside hle, State.writeFaultDue_image, e]

/-- R34: a write does not depend on the bytes of the image. -/
theorem State.memWrite_follows (s : State) (d r : NibbleFile) {m : Memory} (hm : m.len = s.image.len) (off : Nat)
    (w : Byte) : State.Follows d r m s.image (s.memWrite off w) ((s.withData d r m).memWrite off w) := by
  obtain h | h | ⟨h, hl⟩ := s.imgAnswer_cases off
  · rw [State.memWrite_of_wait h, State.memWrite_of_wait (s := s.withData d r m) h]
    exact ⟨m, rfl, id⟩
  · have h' : (s.withData d r m).imgAnswer = .err ∨
        ((s.withData d r m).imgAnswer = .ok ∧ (s.withData d r m).image.len ≤ off) :=
      h.imp id fun ⟨hok, hle⟩ => ⟨hok, hm.trans_le hle⟩
    rw [State.memWrite_of_fails w h, State.memWrite_of_fails w h']
    exact State.writeFailed_follows { s with imgAns := s.imgAns.tail } d r hm off
  · rw [State.memWrite_of_ok w h hl, State.memWrite_of_ok (s := s.withData d r m) w h (hl.trans_eq hm.symm)]
    exact ⟨m.setByte off w, State.sendReport_withData { s with
      imgAns := s.imgAns.tail, image := s.image.setByte off w, trace := s.trace ++ [.imgWrite off w] } d r _ off w,
      fun e => by rw [State.sendReport_image, e]⟩

/-- R78: a read and its write depend on the byte at their offset alone. -/
theorem State.memReadThenWrite_follows (s : State) (d r : NibbleFile) {m : Memory} (hm : m.len = s.image.len)
    {off : Nat} (hbyte : m.byteAt off = s.image.byteAt off) (v c : Byte) :
    State.Follows d r m s.image (s.memReadThenWrite off v c) ((s.withData d r m).memReadThenWrite off v c) := by
  obtain h | h | ⟨h, hl⟩ := s.imgAnswer_cases off
  · rw [State.memRead_of_wait h, State.memRead_of_wait (s := s.withData d r m) h]
    exact ⟨m, rfl, id⟩
  · have h' : (s.withData d r m).imgAnswer = .err ∨
        ((s.withData d r m).imgAnswer = .ok ∧ (s.withData d r m).image.len ≤ off) :=
      h.imp id fun ⟨hok, hle⟩ => ⟨hok, hm.trans_le hle⟩
    rw [State.memRead_of_fails v c h, State.memRead_of_fails v c h']
    exact ⟨m, rfl, id⟩
  · have hbyte' : (s.withData d r m).image.byteAt off = s.image.byteAt off := hbyte
    rw [State.memRead_of_ok v c h hl, State.memRead_of_ok (s := s.withData d r m) v c h (hl.trans_eq hm.symm), hbyte']
    exact State.memWrite_follows { s with
      imgAns := s.imgAns.tail, trace := s.trace ++ [.imgRead off (s.image.byteAt off)] } d r hm off _

/-! ### The bytes of the image -/

/-- Two executions whose access phases follow each other end in states that differ in the image alone. -/
theorem exec_eq_of_follows {i : Instr} {s t t' : State} {m : Memory}
    (hacc : ∀ fo, s.finalOffset (addressOf i) = some fo →
      State.Follows (s.latched i).d (s.latched i).r m s.image ((s.latched i).access fo i)
        (((s.latched i).withData (s.latched i).d (s.latched i).r m).access fo i))
    (h : exec i s = .next t) (h' : exec i { s with image := m } = .next t') : { t' with image := t.image } = t := by
  have hlatched : State.latched { s with image := m } i =
      (s.latched i).withData (s.latched i).d (s.latched i).r m := by cases i <;> rfl
  cases hfo : s.finalOffset (addressOf i) with
  | none =>
    cases (exec_of_overflow hfo).symm.trans h
    cases (exec_of_overflow (s := { s with image := m }) hfo).symm.trans h'
    rw [hlatched]
    rfl
  | some fo =>
    obtain ⟨m', he, -⟩ := hacc fo hfo
    have f := (s.latched i).access_frame fo i
    cases (exec_of_fits hfo).symm.trans h
    cases (exec_of_fits (s := { s with image := m }) hfo).symm.trans h'
    rw [hlatched, he, ← f.d, ← f.r]
    rfl

/-- Settles O19: a write does not read the image. -/
theorem gg6IgnoresImageContents : Obligations.Gg6IgnoresImageContents := fun x a v s _ _ _ hm h h' =>
  exec_eq_of_follows (i := .gg6 x a v)
    (fun fo _ => State.memWrite_follows (s.latched (.gg6 x a v)) _ _ hm fo v) h h'

/-- Settles O20: the read is of the byte at the Final Offset. -/
theorem gg8DependsOnOneByte : Obligations.Gg8DependsOnOneByte := fun x a v c s _ _ _ hm hbyte h h' =>
  exec_eq_of_follows (i := .gg8 x a v c)
    (fun fo hfo => State.memReadThenWrite_follows (s.latched (.gg8 x a v c)) _ _ hm (hbyte fo hfo) v c) h h'

/-! ### The nibble files -/

/-- A state with other nibble files. -/
def State.withNibbles (s : State) (d r : NibbleFile) : State := { s with d := d, r := r }

/-- With one image for both, what follows is the same image and other nibble files. -/
theorem State.Follows.eq_withNibbles {d r : NibbleFile} {m : Memory} {t t' : State} (h : State.Follows d r m m t t') :
    t' = t.withNibbles d r := by
  obtain ⟨m', rfl, hm⟩ := h
  rw [hm rfl]
  rfl

theorem State.memWrite_withNibbles (s : State) (d r : NibbleFile) (off : Nat) (w : Byte) :
    (s.withNibbles d r).memWrite off w = (s.memWrite off w).withNibbles d r :=
  (s.memWrite_follows d r (m := s.image) rfl off w).eq_withNibbles

theorem State.memReadThenWrite_withNibbles (s : State) (d r : NibbleFile) (off : Nat) (v c : Byte) :
    (s.withNibbles d r).memReadThenWrite off v c = (s.memReadThenWrite off v c).withNibbles d r :=
  (s.memReadThenWrite_follows d r (m := s.image) rfl rfl v c).eq_withNibbles

/-- R70, R75: no access phase reads the nibble files. -/
theorem State.access_withNibbles (s : State) (d r : NibbleFile) (fo : Nat) (i : Instr) :
    (s.withNibbles d r).access fo i = (s.access fo i).withNibbles d r := by
  cases i with
  | gg6 x a v => exact s.memWrite_withNibbles d r fo v
  | gg8 x a v c => exact s.memReadThenWrite_withNibbles d r fo v c

/-- An execution but for the nibble files: what it does to the state as it is. -/
theorem exec_eraseNibbles (i : Instr) (s : State) : andThen (exec i s) State.eraseNibbles =
    .next (match s.finalOffset (addressOf i) with
      | none => (s.raise .offsetOverflow).eraseNibbles
      | some fo => (s.access fo i).eraseNibbles) := by
  have hlatched : s.latched i = s.withNibbles (s.latched i).d (s.latched i).r := s.latched_eq i
  cases hfo : s.finalOffset (addressOf i) with
  | none => rw [exec_of_overflow hfo, hlatched]; rfl
  | some fo => rw [exec_of_fits hfo, hlatched, State.access_withNibbles]; rfl

/-- Settles O12: the formulas mask the third nibble to three bits, and the access phase does not name the bit. -/
theorem ignoredBitChangesNothing : Obligations.IgnoredBitChangesNothing := by
  refine ⟨fun d n h => ⟨fun r => ?six, ?eight⟩, fun a v s => ?gg6, fun a v c s => ?gg8⟩
  case six => simp [rearrange6, h]
  case eight => simp [rearrange8, h]
  case gg6 => rw [exec_eraseNibbles, exec_eraseNibbles]; rfl
  case gg8 => rw [exec_eraseNibbles, exec_eraseNibbles]; rfl

/-! ### The Rearranged Nibble Set -/

/-- A state with another Rearranged Nibble Set. -/
def State.withRearranged (s : State) (r : NibbleFile) : State := { s with r := r }

theorem State.withRearranged_eq (s : State) (r : NibbleFile) : s.withRearranged r = s.withNibbles s.d r := rfl

/-- R27: taking up what is outstanding does not read it. -/
theorem State.resume_withRearranged (s : State) (r : NibbleFile) (p : Pending) :
    (s.withRearranged r).resume p = (s.resume p).withRearranged r := by
  obtain ⟨off, -, f⟩ := s.exists_resume_frame p
  have hd : (s.resume p).withRearranged r = (s.resume p).withNibbles s.d r := by rw [State.withRearranged_eq, f.d]
  rw [hd]
  cases p with
  | read off v c => exact s.memReadThenWrite_withNibbles s.d r off v c
  | write off w => exact s.memWrite_withNibbles s.d r off w
  | report off w =>
    exact (s.sendReport_withData s.d r s.image off w).trans (by rw [← s.sendReport_image off w]; rfl)
  | failing off => exact (s.writeFaultDue_withData s.d r s.image off).trans (by rw [← s.writeFaultDue_image off]; rfl)
  | advance => exact (s.advanceDue_withData s.d r s.image).trans (by rw [← s.advanceDue_image]; rfl)
  | ending => rfl

theorem State.endCode_withRearranged (s : State) (r : NibbleFile) (k : Terminator) :
    (s.withRearranged r).endCode k = (s.endCode k).withRearranged r := by
  cases k <;> rfl

/-- R90: so is the end of a code. -/
theorem State.finishCode_withRearranged (s : State) (r : NibbleFile) :
    (s.withRearranged r).finishCode = s.finishCode.withRearranged r := by
  unfold State.finishCode
  dsimp only [State.withRearranged, State.paceAnswer]
  split
  case h_1 k _ _ _ =>
    cases s.pace.headD .go with
    | rest => rfl
    | go => exact State.endCode_withRearranged { s with pace := s.pace.tail } r k
  case h_2 => rfl

/-- Two outcomes that are the same but for the Rearranged Nibble Set. -/
def RearrangedOnly (o o' : Host.Outcome State Fault Refusal) : Prop :=
  ∃ r, o' = andThen o fun t => t.withRearranged r

theorem RearrangedOnly.next (t : State) (r : NibbleFile) : RearrangedOnly (.next t) (.next (t.withRearranged r)) :=
  ⟨r, rfl⟩

theorem RearrangedOnly.refl (o : Host.Outcome State Fault Refusal) (h : ∀ t, o ≠ .next t) : RearrangedOnly o o := by
  refine ⟨State.reset.r, ?_⟩
  cases o with
  | next t => exact absurd rfl (h t)
  | fault => rfl
  | refused => rfl

/-- What follows an outcome may carry the Rearranged Nibble Set along. -/
theorem RearrangedOnly.andThen {o o' : Host.Outcome State Fault Refusal} (h : RearrangedOnly o o') {f : State → State}
    (hf : ∀ (t : State) (r : NibbleFile), f (t.withRearranged r) = (f t).withRearranged r) :
    RearrangedOnly (andThen o f) (andThen o' f) := by
  obtain ⟨r, rfl⟩ := h
  refine ⟨r, ?_⟩
  cases o with
  | next t => exact congrArg _ (hf t r)
  | fault => rfl
  | refused => rfl

/-- R70, R75: an execution writes the Rearranged Nibble Set, and reads none before that. -/
theorem exec_rearrangedOnly (i : Instr) (s : State) (r : NibbleFile) :
    RearrangedOnly (exec i s) (exec i (s.withRearranged r)) := by
  have hlatched : (s.withRearranged r).latched i =
      (s.latched i).withNibbles (s.latched i).d ((s.withRearranged r).latched i).r := by cases i <;> rfl
  cases hfo : s.finalOffset (addressOf i) with
  | none =>
    rw [exec_of_overflow hfo, exec_of_overflow (s := s.withRearranged r) hfo, hlatched]
    exact .next _ _
  | some fo =>
    have f := (s.latched i).access_frame fo i
    rw [exec_of_fits hfo, exec_of_fits (s := s.withRearranged r) hfo, hlatched, State.access_withNibbles, ← f.d]
    exact .next _ _

/-- R91: so does the execution of the code that has arrived. -/
theorem State.executeCode_rearrangedOnly (s : State) (r : NibbleFile) :
    RearrangedOnly s.executeCode (s.withRearranged r).executeCode := by
  have hcode : (s.withRearranged r).currentCode = s.currentCode := rfl
  rw [State.executeCode, State.executeCode, hcode]
  cases s.currentCode with
  | instr i => exact exec_rearrangedOnly i s r
  | invalidCharacter => exact .next _ _
  | invalidLength => exact .next _ _

/-- The block's own step in `RUN`. -/
theorem State.runStep_rearrangedOnly (s : State) (r : NibbleFile) :
    RearrangedOnly s.runStep (s.withRearranged r).runStep := by
  have hpending : (s.withRearranged r).pending = s.pending := rfl
  have hcq : (s.withRearranged r).cq = s.cq := rfl
  rw [State.runStep, State.runStep, hpending, hcq]
  cases s.pending with
  | some p =>
    simp only [State.resume_withRearranged, State.finishCode_withRearranged]
    exact .next _ _
  | none =>
    have hterm : ∀ (u : State) (k : Terminator),
        RearrangedOnly (andThen (u.acceptTerminator k).executeCode State.finishCode)
          (andThen ((u.acceptTerminator k).withRearranged r).executeCode State.finishCode) := fun u k =>
      ((u.acceptTerminator k).executeCode_rearrangedOnly r).andThen State.finishCode_withRearranged
    cases s.cq with
    | nil => exact .next _ _
    | cons t ts =>
      cases t with
      | char c => exact .next _ _
      | sep => exact hterm { s with cq := ts } .sep
      | fin => exact hterm { s with cq := ts } .fin

theorem State.blockStep_rearrangedOnly (s : State) (r : NibbleFile) :
    RearrangedOnly s.blockStep (s.withRearranged r).blockStep := by
  have hstopped : RearrangedOnly (if s.pending.isSome then .fault .strayRequest else .next s)
      (if s.pending.isSome then .fault .strayRequest else .next (s.withRearranged r)) := by
    cases s.pending.isSome
    · exact .next s r
    · exact .refl _ (by simp)
  have hrun : (s.withRearranged r).runState = s.runState := rfl
  rw [State.blockStep, State.blockStep, hrun]
  cases s.runState with
  | run => exact s.runStep_rearrangedOnly r
  | idle => exact hstopped
  | done => exact hstopped
  | fault => exact hstopped

/-- R14, R85: no register write reads it. -/
theorem State.hostWrite_withRearranged (s : State) (r : NibbleFile) (reg : HostReg) (n : Nat) :
    (s.withRearranged r).hostWrite reg n = (s.hostWrite reg n).withRearranged r := by
  have ha : (s.withRearranged r).acceptsCommands = s.acceptsCommands := rfl
  cases reg with
  | mode =>
    rw [State.hostWrite, State.hostWrite, State.writeMode, State.writeMode, ha]
    cases s.acceptsCommands <;> rfl
  | ctrl =>
    have hm : ((s.withRearranged r).mode = (s.withRearranged r).params.modeP0) = (s.mode = s.params.modeP0) := rfl
    simp only [State.hostWrite, State.start, ha, hm]
    split_ifs <;> rfl
  | status => rfl
  | base => rfl
  | cidx => rfl
  | foff => rfl

theorem State.hostMove_rearrangedOnly (s : State) (r : NibbleFile) (m : HostMove) :
    RearrangedOnly (s.hostMove m) ((s.withRearranged r).hostMove m) := by
  cases m with
  | pass => exact .next s r
  | reset => exact .next s.applyReset State.reset.r
  | write reg n =>
    rw [State.hostMove, State.hostMove, State.hostWrite_withRearranged]
    exact .next _ r
  | read reg =>
    have hread : (s.withRearranged r).hostRead reg = s.hostRead reg := by cases reg <;> rfl
    rw [State.hostMove, State.hostMove, hread]
    exact .next _ r
  | offer k => exact .next _ r
  | loadImage len cells =>
    by_cases hr : s.runState = .run
    · rw [State.hostMove, State.hostMove, State.hostLoadImage_of_run hr,
        State.hostLoadImage_of_run (s := s.withRearranged r) hr]
      exact .refl _ (by simp)
    · rw [State.hostMove, State.hostMove, State.hostLoadImage_of_not_run hr,
        State.hostLoadImage_of_not_run (s := s.withRearranged r) hr]
      by_cases hl : len ≤ 2 ^ s.params.offw
      · rw [if_pos hl, if_pos (by exact hl)]
        exact .next _ r
      · rw [if_neg hl, if_neg (by exact hl)]
        exact .refl _ (by simp)

/-- Every step, whoever's turn it is. -/
theorem step_rearrangedOnly (s : State) (r : NibbleFile) : RearrangedOnly (step s) (step (s.withRearranged r)) := by
  have hhost : (s.withRearranged r).host = s.host := rfl
  rw [step, step, State.turn, State.turn, hhost]
  cases s.host with
  | nil => exact s.blockStep_rearrangedOnly r
  | cons m ms =>
    cases m with
    | pass => exact State.blockStep_rearrangedOnly { s with host := ms } r
    | reset => exact State.hostMove_rearrangedOnly { s with host := ms } r .reset
    | write reg n => exact State.hostMove_rearrangedOnly { s with host := ms } r (.write reg n)
    | read reg => exact State.hostMove_rearrangedOnly { s with host := ms } r (.read reg)
    | offer k => exact State.hostMove_rearrangedOnly { s with host := ms } r (.offer k)
    | loadImage len cells => exact State.hostMove_rearrangedOnly { s with host := ms } r (.loadImage len cells)

/-- Settles O52: both steps have one outcome but for the Rearranged Nibble Set. -/
theorem rearrangedSetIsNeverRead : Obligations.RearrangedSetIsNeverRead := by
  intro s r
  obtain ⟨r', he⟩ := step_rearrangedOnly s r
  rw [State.withRearranged] at he
  rw [he]
  cases step s <;> rfl

end Sys2Proof.Machine
end

section
/-! PROOFS. One code in an environment that answers at once: what it does to the image, the trace and the position, by
the run function and by the machine (42_sequencer.md section 8, 41_gg8.md R79). -/

namespace Sys2Proof.Machine

/-! ### What a legal code does at its Final Offset -/

/-- R70, R75: the byte that a code writes where the byte `l` stands. -/
def storedByte (i : Instr) (l : Byte) : Byte :=
  match i with
  | .gg6 _ _ v => v
  | .gg8 _ _ v c => if l = c then v else l

/-- R28: the read that a code records. -/
def readEvents (i : Instr) (fo : Nat) (l : Byte) : List Event :=
  match i with
  | .gg6 _ _ _ => []
  | .gg8 _ _ _ _ => [.imgRead fo l]

/-- R28: everything that a completed code records. -/
def codeEvents (i : Instr) (fo : Nat) (l : Byte) : List Event :=
  readEvents i fo l ++ [.imgWrite fo (storedByte i l), .report fo (storedByte i l)]

/-- R70, R75: the kind of the first access of a code. -/
def firstAccess : Instr → FaultOp
  | .gg6 _ _ _ => .write
  | .gg8 _ _ _ _ => .read

/-- R100: a code whose Final Offset lies in the image. -/
theorem patch_of_inside {i : Instr} {fo : Nat} {img : Memory} (h : fo < img.len) (trace : List Event) :
    RunResult.patch i fo img trace = (img.setByte fo (storedByte i (img.byteAt fo)),
      trace ++ codeEvents i fo (img.byteAt fo), none) := by
  cases i <;> simp only [RunResult.patch, if_pos h] <;> rfl

/-- R100: a code whose Final Offset lies beyond it. -/
theorem patch_of_outside {i : Instr} {fo : Nat} {img : Memory} (h : img.len ≤ fo) (trace : List Event) :
    RunResult.patch i fo img trace = (img, trace, some (firstAccess i)) := by
  cases i <;> simp only [RunResult.patch, if_neg (Nat.not_lt.mpr h)] <;> rfl

/-! ### The same in the machine -/

theorem State.quietEnv.imgAnswer {s : State} (h : s.quietEnv) : s.imgAnswer = .ok := by
  rw [State.imgAnswer, h.imgAns]; rfl

theorem State.quietEnv.rptAnswer {s : State} (h : s.quietEnv) : s.rptAnswer = .take := by
  rw [State.rptAnswer, h.rptAns]; rfl

theorem State.quietEnv.paceAnswer {s : State} (h : s.quietEnv) : s.paceAnswer = .go := by
  rw [State.paceAnswer, h.pace]; rfl

/-- The write of a quiet environment inside the image: the byte, the two events, the advance. -/
theorem State.memWrite_of_quiet {s : State} (h : s.quietEnv) {off : Nat} (hl : off < s.image.len) (w : Byte) :
    s.memWrite off w = State.advance { s with
      image := s.image.setByte off w, trace := s.trace ++ [.imgWrite off w, .report off w] } := by
  rw [State.memWrite_of_taken w h.imgAnswer hl h.rptAnswer, State.advanceDue_of_go (by exact h.paceAnswer)]
  simp only [h.imgAns, h.rptAns, h.pace, h.pending, List.tail_nil]

/-- R70, R75: the access phase of a quiet environment inside the image. -/
theorem State.access_of_inside {s : State} (h : s.quietEnv) {fo : Nat} (hl : fo < s.image.len) (i : Instr) :
    s.access fo i = State.advance { s with
      image := s.image.setByte fo (storedByte i (s.image.byteAt fo))
      trace := s.trace ++ codeEvents i fo (s.image.byteAt fo) } := by
  cases i with
  | gg6 x a v => exact State.memWrite_of_quiet h hl v
  | gg8 x a v c =>
    have hread := State.memRead_of_ok v c h.imgAnswer hl
    simp only [h.imgAns, List.tail_nil] at hread
    rw [State.access, hread, State.memWrite_of_quiet (by exact ⟨rfl, h.rptAns, h.pace, h.pending⟩) (by exact hl)]
    simp only [List.append_assoc, h.imgAns]
    rfl

/-- R113: the access phase of a quiet environment beyond the image. -/
theorem State.access_of_outside {s : State} (h : s.quietEnv) {fo : Nat} (hl : s.image.len ≤ fo) (i : Instr) :
    s.access fo i = s.raiseIO fo (firstAccess i) := by
  have hfails : s.imgAnswer = .err ∨ (s.imgAnswer = .ok ∧ s.image.len ≤ fo) := .inr ⟨h.imgAnswer, hl⟩
  cases i with
  | gg6 x a v =>
    rw [State.access, State.memWrite_of_fails v hfails, State.writeFailed_outside (by exact hl),
      State.writeFaultDue_of_go (by exact h.paceAnswer)]
    simp only [h.imgAns, h.pace, List.tail_nil]
    simp only [State.raiseIO, State.raise, firstAccess, h.imgAns, h.pace]
  | gg8 x a v c =>
    rw [State.access, State.memRead_of_fails v c hfails]
    simp only [State.raiseIO, State.raise, firstAccess, h.imgAns, List.tail_nil]

theorem State.quietEnv.latched {s : State} (h : s.quietEnv) (i : Instr) : (s.latched i).quietEnv := by
  cases i <;> exact ⟨h.imgAns, h.rptAns, h.pace, h.pending⟩

/-! ### R79: a second application -/

/-- The image that an execution leaves in a quiet environment. -/
theorem exec_image_of_quiet {i : Instr} {s t : State} (h : s.quietEnv) (he : exec i s = .next t) :
    (∃ fo, s.finalOffset (addressOf i) = some fo ∧ fo < s.image.len ∧
      t.image = s.image.setByte fo (storedByte i (s.image.byteAt fo))) ∨
    ((∀ fo, s.finalOffset (addressOf i) = some fo → s.image.len ≤ fo) ∧ t.image = s.image) := by
  have himage : (s.latched i).image = s.image := by cases i <;> rfl
  obtain ⟨fo, hfo, rfl, -⟩ | ⟨hnone, rfl⟩ := exec_cases he
  · rcases Nat.lt_or_ge fo s.image.len with hl | hl
    · rw [State.access_of_inside (h.latched i) (by rwa [himage]), State.advance_image, himage]
      exact .inl ⟨fo, hfo, hl, rfl⟩
    · rw [State.access_of_outside (h.latched i) (by rwa [himage])]
      exact .inr ⟨fun go hgo => by rw [hfo] at hgo; cases hgo; exact hl, himage⟩
  · exact .inr ⟨fun fo hfo => (by rw [hnone] at hfo; cases hfo), himage⟩

/-- R75, R79: where the byte that a `GG8` code wrote stands, the code writes it again. -/
theorem storedByte_gg8_idem (x : Bool) (a : Address) (v c l : Byte) :
    storedByte (.gg8 x a v c) (storedByte (.gg8 x a v c) l) = storedByte (.gg8 x a v c) l := by
  by_cases h : l = c
  · simp [storedByte, h]
  · simp [storedByte, h]

/-- Settles O21: the second application writes back the byte that stands there. -/
theorem gg8IsIdempotentOnContent : Obligations.Gg8IsIdempotentOnContent := by
  intro x a v c s t s2 t2 hwf hs he hs2 hp hb himage he2
  have hoffset : s2.finalOffset a = s.finalOffset a := State.finalOffset_congr hp hb a
  obtain ⟨fo, hfo, hl, ht⟩ | ⟨hout, ht⟩ := exec_image_of_quiet hs he
  · obtain ⟨go, hgo, -, ht2⟩ | ⟨-, ht2⟩ := exec_image_of_quiet hs2 he2
    · have hsame : go = fo := Option.some.inj (hgo.symm.trans (hoffset.trans hfo))
      have hwf' : t.image.wf = true := ht ▸ Memory.wf_setByte hwf hl _
      have hl' : fo < t.image.len := ht ▸ hl
      have hbyte : storedByte (.gg8 x a v c) (t.image.byteAt fo) = t.image.byteAt fo := by
        rw [ht, Memory.byteAt_setByte_same hwf, storedByte_gg8_idem]
      rw [ht2, hsame, himage, hbyte, Memory.setByte_self hwf' hl']
    · rw [ht2, himage]
  · obtain ⟨go, hgo, hl2, -⟩ | ⟨-, ht2⟩ := exec_image_of_quiet hs2 he2
    · have hle := hout go (hoffset.symm.trans hgo)
      rw [himage, ht] at hl2
      omega
    · rw [ht2, himage]

end Sys2Proof.Machine
end

section
/-! PROOFS. The whole run: the machine's steps agree with the run function, and a run that ends in `DONE` has applied
every code (42_sequencer.md section 8). -/

namespace Sys2Proof.Machine

/-! ### One code in the run function -/

/-- The code at a position is completed: it decodes to `i`, its Final Offset `fo` fits and lies in the image, and the
advance fits (R100). -/
structure CodeApplies (p : Params) (code : List Nat) (cidx base : Nat) (img : Memory) (i : Instr) (fo : Nat) :
    Prop where
  decodes : decodeCode code = .instr i
  offset : fo = (addressOf i).toNat + base
  fits : fo < 2 ^ p.offw
  inside : fo < img.len
  base_fits : base + p.bankSize < 2 ^ p.offw
  cidx_fits : cidx + 1 < 2 ^ p.cidxw

/-- The code at a position faults: the cause, the failing access, the image it leaves and what it records before the
fault (R100). -/
inductive CodeFails (p : Params) (code : List Nat) (cidx base : Nat) (img : Memory) :
    Cause → Option (Nat × FaultOp) → Memory → List Event → Prop
  | character (h : decodeCode code = .invalidCharacter) : CodeFails p code cidx base img .invalidCharacter none img []
  | length (h : decodeCode code = .invalidLength) : CodeFails p code cidx base img .invalidLength none img []
  | offset (i : Instr) (h : decodeCode code = .instr i) (hfo : 2 ^ p.offw ≤ (addressOf i).toNat + base) :
      CodeFails p code cidx base img .offsetOverflow none img []
  | access (i : Instr) (fo : Nat) (h : decodeCode code = .instr i) (hfo : fo = (addressOf i).toNat + base)
      (hlt : fo < 2 ^ p.offw) (hl : img.len ≤ fo) :
      CodeFails p code cidx base img .imageIOError (some (fo, firstAccess i)) img []
  | advance (i : Instr) (fo : Nat) (h : decodeCode code = .instr i) (hfo : fo = (addressOf i).toNat + base)
      (hlt : fo < 2 ^ p.offw) (hl : fo < img.len)
      (hadv : 2 ^ p.offw ≤ base + p.bankSize ∨ 2 ^ p.cidxw ≤ cidx + 1) :
      CodeFails p code cidx base img .offsetOverflow none (img.setByte fo (storedByte i (img.byteAt fo)))
        (codeEvents i fo (img.byteAt fo))

/-- A code at a position is completed or faults. -/
theorem code_applies_or_fails (p : Params) (code : List Nat) (cidx base : Nat) (img : Memory) :
    (∃ i fo, CodeApplies p code cidx base img i fo) ∨
    ∃ cause access img' es, CodeFails p code cidx base img cause access img' es := by
  cases hd : decodeCode code with
  | invalidCharacter => exact .inr ⟨_, _, _, _, .character hd⟩
  | invalidLength => exact .inr ⟨_, _, _, _, .length hd⟩
  | instr i =>
    rcases Nat.lt_or_ge ((addressOf i).toNat + base) (2 ^ p.offw) with hlt | hge
    · rcases Nat.lt_or_ge ((addressOf i).toNat + base) img.len with hl | hl
      · by_cases hadv : 2 ^ p.offw ≤ base + p.bankSize ∨ 2 ^ p.cidxw ≤ cidx + 1
        · exact .inr ⟨_, _, _, _, .advance i _ hd rfl hlt hl hadv⟩
        · exact .inl ⟨i, _, hd, rfl, hlt, hl, by omega, by omega⟩
      · exact .inr ⟨_, _, _, _, .access i _ hd rfl hlt hl⟩
    · exact .inr ⟨_, _, _, _, .offset i hd hge⟩

/-- R100: the loop goes on after a code that is completed. -/
theorem runFrom_of_applies {p : Params} {code : List Nat} {cidx base : Nat} {img : Memory} {i : Instr} {fo : Nat}
    (h : CodeApplies p code cidx base img i fo) (codes : List (List Nat)) (trace : List Event) :
    runFrom p (code :: codes) cidx base img trace = runFrom p codes (cidx + 1) (base + p.bankSize)
      (img.setByte fo (storedByte i (img.byteAt fo))) (trace ++ codeEvents i fo (img.byteAt fo)) := by
  have hfits := h.fits
  have hinside := h.inside
  have hadv : ¬ (2 ^ p.offw ≤ base + p.bankSize ∨ 2 ^ p.cidxw ≤ cidx + 1) := by
    have := h.base_fits; have := h.cidx_fits; omega
  obtain rfl := h.offset
  simp only [runFrom, h.decodes, if_neg (Nat.not_le.mpr hfits), patch_of_inside hinside, if_neg hadv]

/-- R100: the loop returns at a code that faults. -/
theorem runFrom_of_fails {p : Params} {code : List Nat} {cidx base : Nat} {img img' : Memory} {cause : Cause}
    {access : Option (Nat × FaultOp)} {es : List Event} (h : CodeFails p code cidx base img cause access img' es)
    (codes : List (List Nat)) (trace : List Event) : runFrom p (code :: codes) cidx base img trace =
      .failed cause cidx base access img' (trace ++ es) := by
  cases h with
  | character h => simp only [runFrom, h, List.append_nil]
  | length h => simp only [runFrom, h, List.append_nil]
  | offset i h hfo => simp only [runFrom, h, if_pos hfo, List.append_nil]
  | access i fo h hfo hlt hl =>
    subst hfo
    simp only [runFrom, h, if_neg (Nat.not_le.mpr hlt), patch_of_outside hl, List.append_nil]
  | advance i fo h hfo hlt hl hadv =>
    subst hfo
    simp only [runFrom, h, if_neg (Nat.not_le.mpr hlt), patch_of_inside hl, if_pos hadv]

/-- R100: the trace before the loop stays in front. -/
theorem runFrom_append (p : Params) (codes : List (List Nat)) (cidx base : Nat) (img : Memory)
    (pre trace : List Event) : runFrom p codes cidx base img (pre ++ trace) = { runFrom p codes cidx base img trace with
      trace := pre ++ (runFrom p codes cidx base img trace).trace } := by
  induction codes generalizing cidx base img trace with
  | nil => simp only [runFrom, List.append_assoc]
  | cons code codes ih =>
    obtain ⟨i, fo, h⟩ | ⟨cause, access, img', es, h⟩ := code_applies_or_fails p code cidx base img
    · rw [runFrom_of_applies h, runFrom_of_applies h, List.append_assoc, ih]
    · rw [runFrom_of_fails h, runFrom_of_fails h]
      simp only [RunResult.failed, List.append_assoc]

/-! ### One code in the machine -/

/-- A running block in an environment that answers at once, with no move of the host to come. -/
structure State.Ready (s : State) : Prop where
  quiet : s.quietEnv
  host : s.host = []
  run : s.runState = .run
  cause : s.cause = .none

theorem State.Ready.passes {s : State} (h : s.Ready) : s.passes := by
  rw [State.passes, h.host]; rfl

/-- What the failing access of a result says of `FOFF` and `FOP`: they hold it, or what they held before. -/
def AccessShown (foff : Nat) (fop : FaultOp) (t : State) : Option (Nat × FaultOp) → Prop
  | some (off, op) => t.foff = off ∧ t.fop = op
  | none => t.foff = foff ∧ t.fop = fop

/-- R117: the state that a failing code leaves. -/
structure FailedState (s : State) (c : Cause) (acc : Option (Nat × FaultOp)) (img : Memory) (es : List Event)
    (t : State) : Prop where
  runState : t.runState = .fault
  cause : t.cause = c
  cidx : t.cidx = s.cidx
  base : t.base = s.base
  image : t.image = img
  trace : t.trace = s.trace ++ es ++ [.fault c s.cidx]
  access : AccessShown s.foff s.fop t acc
  pending : t.pending = none
  host : t.host = s.host.tail

/-- A fault entry on the accepted state with other nibble files, another image and more events. -/
theorem State.raise_failedState (s : State) (k : Terminator) (ts : List Token) (d r : NibbleFile) (img : Memory)
    (es : List Event) (c : Cause) : FailedState s c none img es
      (State.raise { s.accepted k ts with d := d, r := r, image := img, trace := s.trace ++ es } c) :=
  ⟨rfl, rfl, rfl, rfl, rfl, rfl, ⟨rfl, rfl⟩, rfl, rfl⟩

/-- R90, R91: the terminator of a code that faults, in the machine. -/
theorem step_of_fails {s : State} (hs : s.Ready) {code : List Nat} (hcode : s.currentCode = decodeCode code)
    {k : Terminator} {ts : List Token} (hq : s.cq = k.token :: ts) {c : Cause} {acc : Option (Nat × FaultOp)}
    {img : Memory} {es : List Event} (h : CodeFails s.params code s.cidx s.base s.image c acc img es) :
    ∃ t, step s = .next t ∧ FailedState s c acc img es t := by
  have hp := hs.passes
  have ho := hs.quiet.pending
  have hexec : ∀ {i : Instr} {u : State}, decodeCode code = .instr i → exec i (s.accepted k ts) = .next u →
      FailedState s c acc img es u → ∃ t, step s = .next t ∧ FailedState s c acc img es t := by
    intro i u hd hu hf
    refine ⟨u, ?_, hf⟩
    rw [step_of_code hp hs.run ho hq (hcode.trans hd), hu, andThen,
      State.finishCode_of_idle (.inl (by simp [hf.runState]))]
  have hquiet : (s.accepted k ts).quietEnv := ⟨hs.quiet.imgAns, hs.quiet.rptAns, hs.quiet.pace, hs.quiet.pending⟩
  have hlatched : ∀ i, (s.accepted k ts).latched i = (s.accepted k ts).withNibbles
      ((s.accepted k ts).latched i).d ((s.accepted k ts).latched i).r := State.latched_eq _
  cases h with
  | character h =>
    refine ⟨_, step_of_illegal hp hs.run ho hq (.inl ⟨hcode.trans h, rfl⟩), ?_⟩
    exact ⟨rfl, rfl, rfl, rfl, rfl, by rw [List.append_nil], ⟨rfl, rfl⟩, ho, rfl⟩
  | length h =>
    refine ⟨_, step_of_illegal hp hs.run ho hq (.inr ⟨hcode.trans h, rfl⟩), ?_⟩
    exact ⟨rfl, rfl, rfl, rfl, rfl, by rw [List.append_nil], ⟨rfl, rfl⟩, ho, rfl⟩
  | offset i h hfo =>
    refine hexec h (exec_of_overflow (State.finalOffset_none.mpr hfo)) ?_
    have hf := s.raise_failedState k ts ((s.accepted k ts).latched i).d ((s.accepted k ts).latched i).r s.image []
      .offsetOverflow
    rw [List.append_nil] at hf
    rw [hlatched i]
    exact hf
  | access i fo h hfo hlt hl =>
    refine hexec h (exec_of_fits (State.finalOffset_some.mpr ⟨hfo, hlt⟩)) ?_
    rw [State.access_of_outside (hquiet.latched i) (by rw [hlatched i]; exact hl), hlatched i]
    exact ⟨rfl, rfl, rfl, rfl, rfl, by rw [List.append_nil]; rfl, ⟨rfl, rfl⟩, rfl, rfl⟩
  | advance i fo h hfo hlt hl hadv =>
    refine hexec h (exec_of_fits (State.finalOffset_some.mpr ⟨hfo, hlt⟩)) ?_
    rw [State.access_of_inside (hquiet.latched i) (by rw [hlatched i]; exact hl), hlatched i,
      State.advance_of_not_fits (by exact hadv)]
    exact s.raise_failedState k ts _ _ _ _ .offsetOverflow

/-- R70, R75, R96: the state with a code applied at its Final Offset and the position advanced. -/
def State.applied (s : State) (d r : NibbleFile) (i : Instr) (fo : Nat) : State :=
  { s with
    d := d
    r := r
    image := s.image.setByte fo (storedByte i (s.image.byteAt fo))
    trace := s.trace ++ codeEvents i fo (s.image.byteAt fo)
    base := s.base + s.params.bankSize
    cidx := s.cidx + 1 }

/-- R90, R98: in a quiet environment the code that has been applied ends at once. -/
theorem State.applied_finishCode {s : State} (hr : s.runState = .run) (hquiet : s.quietEnv) {k : Terminator}
    (hx : s.executing = some k) (d r : NibbleFile) (i : Instr) (fo : Nat) :
    (s.applied d r i fo).finishCode = (s.applied d r i fo).endCode k := by
  have htail : s.pace.tail = s.pace := by rw [hquiet.pace]; rfl
  rw [State.finishCode_of_go (s := s.applied d r i fo) hr hquiet.pending hx hquiet.paceAnswer]
  simp only [State.applied, htail]

/-- R90, R91, R98: the terminator of a code that is completed, in the machine. -/
theorem step_of_applies {s : State} (hs : s.Ready) {code : List Nat} (hcode : s.currentCode = decodeCode code)
    {k : Terminator} {ts : List Token} (hq : s.cq = k.token :: ts) {i : Instr} {fo : Nat}
    (h : CodeApplies s.params code s.cidx s.base s.image i fo) :
    ∃ d r, step s = .next (((s.accepted k ts).applied d r i fo).endCode k) := by
  have hquiet : (s.accepted k ts).quietEnv := ⟨hs.quiet.imgAns, hs.quiet.rptAns, hs.quiet.pace, hs.quiet.pending⟩
  have hlatched : (s.accepted k ts).latched i = (s.accepted k ts).withNibbles
      ((s.accepted k ts).latched i).d ((s.accepted k ts).latched i).r := State.latched_eq _ i
  have hexec : exec i (s.accepted k ts) =
      .next ((s.accepted k ts).applied ((s.accepted k ts).latched i).d ((s.accepted k ts).latched i).r i fo) := by
    have hfo : (s.accepted k ts).finalOffset (addressOf i) = some fo :=
      State.finalOffset_some.mpr ⟨h.offset, h.fits⟩
    rw [exec_of_fits hfo,
      State.access_of_inside (hquiet.latched i) (by rw [hlatched]; exact h.inside), hlatched,
      State.advance_of_fits (by exact h.base_fits) (by exact h.cidx_fits)]
    rfl
  refine ⟨((s.accepted k ts).latched i).d, ((s.accepted k ts).latched i).r, ?_⟩
  rw [step_of_code hs.passes hs.run hs.quiet.pending hq (hcode.trans h.decodes), hexec, andThen,
    State.applied_finishCode (s := s.accepted k ts) hs.run hquiet rfl]

/-! ### Runs of the machine -/

/-- The run of the machine (Host/Core.lean), as steps of `State`. -/
def runSteps (n : Nat) (s : State) : Host.Outcome State Fault Refusal := Host.Core.run core n s

/-- One step of a run, of any machine. -/
theorem coreRun_of_step (M : Host.Core) {s u : M.State} (h : M.step s = .next u) (n : Nat) :
    M.run (n + 1) s = M.run n u := by
  rw [Host.Core.run, h]

theorem runSteps_of_step {s u : State} (h : step s = .next u) (n : Nat) : runSteps (n + 1) s = runSteps n u :=
  coreRun_of_step core h n

/-- R98, R117: a block that has stopped stays as it is. -/
theorem runSteps_of_stopped {s : State} (hr : s.runState ≠ .run) (ho : s.pending = none) (hh : s.host = [])
    (n : Nat) : runSteps n s = .next s := by
  have hstep : step s = .next s := by
    have hs := step_of_stopped hr ho (by rw [State.passes, hh]; rfl)
    have htail : s.host.tail = s.host := by rw [hh]; rfl
    rwa [htail] at hs
  induction n with
  | zero => rfl
  | succ n ih => rw [runSteps_of_step hstep, ih]

/-- R89: the characters of a code are latched one at each step. -/
theorem runSteps_of_chars {s : State} (hr : s.runState = .run) (ho : s.pending = none) (hh : s.host = [])
    (code : List Nat) {ts : List Token} (hq : s.cq = code.map .char ++ ts) (n : Nat) :
    runSteps (code.length + n) s = runSteps n (State.latchChars { s with cq := ts } code) := by
  induction code generalizing s with
  | nil =>
    obtain rfl : s.cq = ts := hq
    rw [List.length_nil, Nat.zero_add]
    rfl
  | cons c cs ih =>
    have hp : s.passes := by rw [State.passes, hh]; rfl
    have htail : s.host.tail = s.host := by rw [hh]; rfl
    have hstep := step_of_char hp hr ho hq
    rw [htail] at hstep
    rw [List.length_cons, show cs.length + 1 + n = cs.length + n + 1 by omega, runSteps_of_step hstep]
    exact ih (by exact hr) (by exact ho) (by exact hh) rfl

/-! ### The machine against the run function -/

/-- The state in which a run has stopped shows the result of the run function; `foff` and `fop` are what the two
registers held before. -/
structure Agrees (foff : Nat) (fop : FaultOp) (t : State) (res : RunResult) : Prop where
  runState : t.runState = res.runState
  cause : t.cause = res.cause
  cidx : t.cidx = res.cidx
  base : t.base = res.base
  image : t.image = res.image
  trace : t.trace = res.trace
  access : AccessShown foff fop t res.access
  pending : t.pending = none

/-- R117, R100: a failing code ends the run as the run function says. -/
theorem FailedState.agrees {s t : State} {code : List Nat} {c : Cause} {acc : Option (Nat × FaultOp)} {img : Memory}
    {es : List Event} (hf : FailedState s c acc img es t)
    (h : CodeFails s.params code s.cidx s.base s.image c acc img es) (codes : List (List Nat)) :
    Agrees s.foff s.fop t (runFrom s.params (code :: codes) s.cidx s.base s.image s.trace) := by
  rw [runFrom_of_fails h]
  exact ⟨hf.runState, hf.cause, hf.cidx, hf.base, hf.image, hf.trace, hf.access, hf.pending⟩

/-- R89: latching changes `d`, `LEN` and `BAD` alone. -/
theorem State.latchChars_eq (s : State) (code : List Nat) : s.latchChars code = { s with
    d := (s.latchChars code).d, len := (s.latchChars code).len, bad := (s.latchChars code).bad } := by
  induction code generalizing s with
  | nil => rfl
  | cons c cs ih => rw [State.latchChars, ih (s.latchChar c)]; rfl

/-- R89: a running block that has latched the characters of a code, with the tokens that follow them. -/
theorem State.Ready.latched {s : State} (h : s.Ready) (ts : List Token) (code : List Nat) :
    (State.latchChars { s with cq := ts } code).Ready := by
  rw [State.latchChars_eq]
  exact ⟨⟨h.quiet.imgAns, h.quiet.rptAns, h.quiet.pace, h.quiet.pending⟩, h.host, h.run, h.cause⟩

/-- The outcome of the characters and the terminator of one code: the run has ended in a fault as the run function says,
or the code has been applied and ended. -/
theorem runSteps_of_code {s : State} (hs : s.Ready) (hlen : s.len = 0) (hbad : s.bad = false) {code : List Nat}
    {k : Terminator} {ts : List Token} (hq : s.cq = code.map .char ++ k.token :: ts) :
    (∃ t, (∀ n, runSteps (code.length + (n + 1)) s = .next t) ∧
      ∀ codes, Agrees s.foff s.fop t (runFrom s.params (code :: codes) s.cidx s.base s.image s.trace)) ∨
    ∃ i fo d r len bad, CodeApplies s.params code s.cidx s.base s.image i fo ∧
      ∀ n, runSteps (code.length + (n + 1)) s =
        runSteps n ((State.applied { s.accepted k ts with len := len, bad := bad } d r i fo).endCode k) := by
  have hready := hs.latched (k.token :: ts) code
  have hcode : (State.latchChars { s with cq := k.token :: ts } code).currentCode = decodeCode code :=
    State.currentCode_latchChars_eq (s := { s with cq := k.token :: ts }) hlen hbad code
  have hchars := fun n => runSteps_of_chars hs.run hs.quiet.pending hs.host code hq (n + 1)
  rw [State.latchChars_eq] at hready hcode hchars
  obtain ⟨i, fo, h⟩ | ⟨c, acc, img, es, h⟩ := code_applies_or_fails s.params code s.cidx s.base s.image
  · obtain ⟨d, r, hstep⟩ := step_of_applies hready hcode rfl h
    exact .inr ⟨i, fo, d, r, _, _, h, fun n => (hchars n).trans (runSteps_of_step hstep n)⟩
  · obtain ⟨t, hstep, hf⟩ := step_of_fails hready hcode rfl h
    refine .inl ⟨t, fun n => ?_, hf.agrees h⟩
    have hhost : t.host = [] := by rw [hf.host]; exact congrArg List.tail hs.host
    rw [hchars n, runSteps_of_step hstep, runSteps_of_stopped (by simp [hf.runState]) hf.pending hhost]

/-- R100: from a block that is ready for a code, with `LEN` and `BAD` clear, the steps of the machine over the tokens of
the codes give the result of the loop. -/
theorem runSteps_agrees : ∀ codes : List (List Nat), codes ≠ [] → ∀ {s : State}, s.Ready → s.len = 0 →
    s.bad = false → s.cq = tokensOf codes → ∃ t, runSteps (tokensOf codes).length s = .next t ∧
      Agrees s.foff s.fop t (runFrom s.params codes s.cidx s.base s.image s.trace)
  | [], hne, _, _, _, _, _ => absurd rfl hne
  | [code], _, s, hs, hlen, hbad, hq => by
    have hn : (tokensOf [code]).length = code.length + (0 + 1) := by simp [tokensOf]
    rw [hn]
    obtain ⟨t, hrun, hagrees⟩ | ⟨i, fo, d, r, len, bad, h, hrun⟩ :=
      runSteps_of_code (k := .fin) (ts := []) hs hlen hbad hq
    · exact ⟨t, hrun 0, hagrees []⟩
    · refine ⟨_, hrun 0, ?_⟩
      rw [runFrom_of_applies h]
      exact ⟨rfl, hs.cause, rfl, rfl, rfl, rfl, ⟨rfl, rfl⟩, hs.quiet.pending⟩
  | code :: code' :: codes, _, s, hs, hlen, hbad, hq => by
    have hn : (tokensOf (code :: code' :: codes)).length = code.length + ((tokensOf (code' :: codes)).length + 1) := by
      simp [tokensOf]
    rw [hn]
    obtain ⟨t, hrun, hagrees⟩ | ⟨i, fo, d, r, len, bad, h, hrun⟩ :=
      runSteps_of_code (k := .sep) (ts := tokensOf (code' :: codes)) hs hlen hbad hq
    · exact ⟨t, hrun _, hagrees _⟩
    · have hready : State.Ready ((State.applied { s.accepted .sep (tokensOf (code' :: codes)) with
          len := len, bad := bad } d r i fo).endCode .sep) :=
        ⟨⟨hs.quiet.imgAns, hs.quiet.rptAns, hs.quiet.pace, hs.quiet.pending⟩, congrArg List.tail hs.host, hs.run,
          hs.cause⟩
      obtain ⟨t, hrest, hagrees⟩ := runSteps_agrees (code' :: codes) (by simp) hready rfl rfl rfl
      rw [runFrom_of_applies h]
      exact ⟨t, (hrun _).trans hrest, hagrees⟩

/-! ### The whole run -/

/-- R88, R100: the run from `START`, with the result of the run function after the trace so far. -/
theorem run_agrees {s : State} {codes : List (List Nat)} (hne : codes ≠ []) (ha : s.acceptsCommands = true)
    (hquiet : s.quietEnv) (hhost : s.host = [.write .ctrl 1]) (hq : s.cq = tokensOf codes) :
    ∃ t, runSteps (1 + (tokensOf codes).length) s = .next t ∧
      Agrees s.foff s.fop t { runCodes s.params s.mode codes s.image with
        trace := s.trace ++ (runCodes s.params s.mode codes s.image).trace } := by
  obtain ⟨haccepts, -⟩ := startSeedsOrFaults s 1 [] hhost rfl
  obtain ⟨hseeds, hfaults⟩ := haccepts (s.acceptsCommands_iff.mp ha)
  rw [Nat.add_comm]
  by_cases hm : s.mode = s.params.modeP0
  · obtain ⟨t, hrun, hagrees⟩ := runSteps_agrees codes hne (s := { s with
      host := [], base := s.params.headerSize, cidx := 0, len := 0, bad := false, cause := .none, runState := .run,
      trace := s.trace ++ [.start s.mode] })
      ⟨⟨hquiet.imgAns, hquiet.rptAns, hquiet.pace, hquiet.pending⟩, rfl, rfl, rfl⟩ rfl rfl hq
    refine ⟨t, (runSteps_of_step (hseeds hm) _).trans hrun, ?_⟩
    rw [runCodes, if_pos hm, ← runFrom_append]
    exact hagrees
  · refine ⟨_, (runSteps_of_step (hfaults hm) _).trans (runSteps_of_stopped (by simp) rfl rfl _), ?_⟩
    rw [runCodes, if_neg hm]
    exact ⟨rfl, rfl, rfl, rfl, rfl, rfl, ⟨rfl, rfl⟩, rfl⟩

/-- Settles O53: the simulation, code by code. -/
theorem runAgreesWithRunFunction : Obligations.RunAgreesWithRunFunction := by
  intro s codes hne ha hquiet hhost hq
  obtain ⟨t, hrun, h⟩ := run_agrees hne ha hquiet hhost hq
  refine ⟨t, hrun, h.runState, h.cause, h.cidx, h.base, h.image, h.trace, ?_⟩
  have hacc := h.access
  rcases hres : (runCodes s.params s.mode codes s.image).access with _ | ⟨off, op⟩
  · simp only [hres] at hacc
    exact hacc
  · simp only [hres] at hacc
    exact hacc

end Sys2Proof.Machine
end

section
/-! PROOFS. A run that ends in `DONE` has applied and reported every code once, each at its own Final Offset
(42_sequencer.md sections 7, 8, R98, R101). -/

namespace Sys2Proof.Machine

/-! ### What one code records -/

theorem codeEvents_written (i : Instr) (fo : Nat) (l : Byte) :
    (codeEvents i fo l).filterMap Event.written? = [(fo, storedByte i l)] := by
  cases i <;> rfl

theorem codeEvents_reported (i : Instr) (fo : Nat) (l : Byte) :
    (codeEvents i fo l).filterMap Event.reported? = [(fo, storedByte i l)] := by
  cases i <;> rfl

theorem codeEvents_countP_isRead (i : Instr) (fo : Nat) (l : Byte) :
    (codeEvents i fo l).countP Event.isRead = match i with
      | .gg6 _ _ _ => 0
      | .gg8 _ _ _ _ => 1 := by
  cases i <;> rfl

/-- R54, R55: one read for a code of eight characters, none for one of six. -/
theorem codeEvents_reads {code : List Nat} {i : Instr} (h : decodeCode code = .instr i) (fo : Nat) (l : Byte) :
    (codeEvents i fo l).countP Event.isRead = [code].countP (fun code => code.length == 8) := by
  obtain ⟨ns, rfl, ⟨hlen, rfl⟩ | ⟨hlen, rfl⟩⟩ := decodeCode_eq_instr h
  · simp [codeEvents_countP_isRead, decode6, hlen]
  · simp [codeEvents_countP_isRead, decode8, hlen]

/-- R70, R75: what an instruction writes at an offset, given the events recorded: its value, or the byte that the
comparison selects with a byte read there. -/
def WritesAs (i : Instr) (off : Nat) (w : Byte) (evs : List Event) : Prop :=
  match i with
  | .gg6 _ _ v => w = v
  | .gg8 _ _ v c => ∃ l, .imgRead off l ∈ evs ∧ w = if l = c then v else l

theorem WritesAs.mono {i : Instr} {off : Nat} {w : Byte} {evs evs' : List Event} (h : WritesAs i off w evs)
    (hsub : evs ⊆ evs') : WritesAs i off w evs' := by
  cases i with
  | gg6 x a v => exact h
  | gg8 x a v c =>
    obtain ⟨l, hl, hw⟩ := h
    exact ⟨l, hsub hl, hw⟩

theorem writesAs_codeEvents (i : Instr) (fo : Nat) (l : Byte) : WritesAs i fo (storedByte i l) (codeEvents i fo l) := by
  cases i with
  | gg6 x a v => rfl
  | gg8 x a v c => exact ⟨l, by simp [codeEvents, readEvents], rfl⟩

/-! ### What a completed loop records -/

/-- The events `evs` and the image `img'` are those of the codes applied one after the other from `BASE = base`. -/
structure RunApplied (p : Params) (codes : List (List Nat)) (base : Nat) (img img' : Memory) (evs : List Event) :
    Prop where
  count : (evs.filterMap Event.written?).length = codes.length
  writes : ∀ k code, codes[k]? = some code → ∃ i off w, decodeCode code = .instr i ∧
    off = base + k * p.bankSize + (addressOf i).toNat ∧ (evs.filterMap Event.written?)[k]? = some (off, w) ∧
    WritesAs i off w evs
  reports : evs.filterMap Event.reported? = evs.filterMap Event.written?
  reads : evs.countP Event.isRead = codes.countP (fun code => code.length == 8)
  others : ∀ b, (∀ q ∈ evs.filterMap Event.written?, q.1 ≠ b) → img'.byteAt b = img.byteAt b

/-- R98: the end of a run, or its start, records neither a write nor a report nor a read. -/
theorem RunApplied.cons_silent {p : Params} {codes : List (List Nat)} {base : Nat} {img img' : Memory}
    {evs : List Event} (h : RunApplied p codes base img img' evs) {e : Event} (hw : e.written? = none)
    (hr : e.reported? = none) (hread : e.isRead = false) : RunApplied p codes base img img' (e :: evs) where
  count := by rw [List.filterMap_cons_none hw]; exact h.count
  writes k code hk := by
    obtain ⟨i, off, w, hd, hoff, hget, hwrites⟩ := h.writes k code hk
    exact ⟨i, off, w, hd, hoff, by rw [List.filterMap_cons_none hw]; exact hget,
      hwrites.mono (List.subset_cons_self _ _)⟩
  reports := by rw [List.filterMap_cons_none hw, List.filterMap_cons_none hr]; exact h.reports
  reads := by rw [List.countP_cons_of_neg (by simp [hread])]; exact h.reads
  others b hb := h.others b (by rwa [List.filterMap_cons_none hw] at hb)

theorem RunApplied.nil (p : Params) (base : Nat) (img : Memory) : RunApplied p [] base img img [] where
  count := rfl
  writes k code hk := by simp at hk
  reports := rfl
  reads := rfl
  others _ _ := rfl

/-- R101: one code more in front. -/
theorem RunApplied.cons {p : Params} {code : List Nat} {codes : List (List Nat)} {cidx base : Nat} {img img' : Memory}
    {evs : List Event} {i : Instr} {fo : Nat} (hc : CodeApplies p code cidx base img i fo)
    (h : RunApplied p codes (base + p.bankSize) (img.setByte fo (storedByte i (img.byteAt fo))) img' evs) :
    RunApplied p (code :: codes) base img img' (codeEvents i fo (img.byteAt fo) ++ evs) where
  count := by
    rw [List.filterMap_append, codeEvents_written, List.singleton_append, List.length_cons, h.count, List.length_cons]
  writes k code' hk := by
    rw [List.filterMap_append, codeEvents_written]
    cases k with
    | zero =>
      obtain rfl : code = code' := Option.some.inj hk
      exact ⟨i, fo, _, hc.decodes, by rw [hc.offset]; omega, rfl,
        (writesAs_codeEvents i fo _).mono (List.subset_append_left _ _)⟩
    | succ k =>
      obtain ⟨j, off, w, hd, hoff, hget, hwrites⟩ := h.writes k code' hk
      exact ⟨j, off, w, hd, by rw [hoff]; ring, hget, hwrites.mono (List.subset_append_right _ _)⟩
  reports := by
    rw [List.filterMap_append, List.filterMap_append, codeEvents_written, codeEvents_reported, h.reports]
  reads := by
    rw [List.countP_append, codeEvents_reads hc.decodes, h.reads, ← List.countP_append, List.singleton_append]
  others b hb := by
    rw [List.filterMap_append, codeEvents_written] at hb
    have hfo : b ≠ fo := fun e => hb _ (List.mem_append_left _ (List.mem_singleton.mpr rfl)) e.symm
    rw [h.others b fun q hq => hb q (List.mem_append_right _ hq), Memory.byteAt_setByte_other hfo]

/-- R98, R101: a loop that ends in `DONE` has applied every code. -/
theorem runFrom_done {p : Params} {codes : List (List Nat)} {cidx base : Nat} {img : Memory} {trace : List Event}
    (h : (runFrom p codes cidx base img trace).runState = .done) : ∃ evs,
      (runFrom p codes cidx base img trace).trace = trace ++ evs ∧
      (runFrom p codes cidx base img trace).cidx = cidx + codes.length ∧
      (runFrom p codes cidx base img trace).base = base + codes.length * p.bankSize ∧
      (runFrom p codes cidx base img trace).cause = .none ∧
      RunApplied p codes base img (runFrom p codes cidx base img trace).image evs := by
  induction codes generalizing cidx base img trace with
  | nil =>
    exact ⟨[.done cidx], rfl, rfl, by simp [runFrom], rfl, (RunApplied.nil p base img).cons_silent rfl rfl rfl⟩
  | cons code codes ih =>
    obtain ⟨i, fo, hc⟩ | ⟨c, acc, img', es, hc⟩ := code_applies_or_fails p code cidx base img
    · rw [runFrom_of_applies hc] at h ⊢
      obtain ⟨evs, htrace, hcidx, hbase, hcause, happlied⟩ := ih h
      refine ⟨_, by rw [htrace, List.append_assoc], ?_, ?_, hcause, happlied.cons hc⟩
      · rw [hcidx, List.length_cons]; omega
      · rw [hbase, List.length_cons]; ring
    · rw [runFrom_of_fails hc] at h
      cases h

/-- R98, R101: a run of the run function that ends in `DONE` started with the platform of the decoder and has applied
every code. -/
theorem runCodes_done {p : Params} {mode : Nat} {codes : List (List Nat)} {img : Memory}
    (h : (runCodes p mode codes img).runState = .done) :
      (runCodes p mode codes img).cidx = codes.length ∧
      (runCodes p mode codes img).base = p.headerSize + codes.length * p.bankSize ∧
      (runCodes p mode codes img).cause = .none ∧
      RunApplied p codes p.headerSize img (runCodes p mode codes img).image (runCodes p mode codes img).trace := by
  by_cases hm : mode = p.modeP0
  · rw [runCodes, if_pos hm] at h ⊢
    obtain ⟨evs, htrace, hcidx, hbase, hcause, happlied⟩ := runFrom_done h
    refine ⟨by rw [hcidx, Nat.zero_add], hbase, hcause, ?_⟩
    rw [htrace]
    exact happlied.cons_silent rfl rfl rfl
  · rw [runCodes, if_neg hm] at h
    cases h

/-- Settles O54: the machine's run is that of the run function, which records the codes it applies. -/
theorem doneRunAppliedEveryCode : Obligations.DoneRunAppliedEveryCode := by
  intro s t codes hne ha hquiet hhost hq hrun hdone
  obtain ⟨t', hrun', h⟩ := run_agrees hne ha hquiet hhost hq
  obtain rfl : t' = t := Host.Outcome.next.inj (hrun'.symm.trans hrun)
  obtain ⟨hcidx, hbase, hcause, happlied⟩ := runCodes_done (h.runState.symm.trans hdone)
  refine ⟨h.cidx.trans hcidx, h.base.trans hbase, h.cause.trans hcause, h.pending, _, h.trace, happlied.count,
    fun k code hk => ?_, happlied.reports, happlied.reads, fun b hb => ?_⟩
  · obtain ⟨i, off, w, hd, hoff, hget, hwrites⟩ := happlied.writes k code hk
    exact ⟨i, off, w, hd, hoff, hget, by cases i <;> exact hwrites⟩
  · rw [h.image]
    exact happlied.others b hb

end Sys2Proof.Machine
end
